-- ==== Sys2Proof/Word.lean ====
section
/-! DEFINITION. The values of the machine: mathematical integers with a range (spec 00_scope R5, R6).

The spec has no bit-level field and no rule that depends on a bit pattern (R6), so a cell, the relative base and a
channel value are integers, and the width W enters only through the range check of R5. -/

namespace Sys2Proof

/-- The value of a memory cell, of `rb`, of an operand, of a result or of a channel entry (R6). -/
abbrev Value := Int

/-- MIN = -2^(W-1) (R5). -/
def minValue (w : Nat) : Int := -((2 ^ (w - 1) : Nat) : Int)

/-- MAX = 2^(W-1) - 1 (R5). -/
def maxValue (w : Nat) : Int := ((2 ^ (w - 1) : Nat) : Int) - 1

/-- `v` is representable in W bits: MIN <= v <= MAX (R5). -/
abbrev Fits (w : Nat) (v : Int) : Prop := minValue w ≤ v ∧ v ≤ maxValue w

end Sys2Proof
end

