-- ==== Sys2Proof/Config.lean ====
section
/-! DEFINITION. The implementation parameters of spec 00_scope R4, taken as one record, and their reference values.

The record stands in State (log 2), so a statement over all states is one over every configuration. `N_ENGINES` is
unbounded and needs no field; `SIG_HALT` is fixed at 0 (`sigHalt`). -/

namespace Sys2Proof

/-- Which end `Pop` removes from: `CHANNEL_ORDER` (R4; 44_io R88). -/
inductive ChannelOrder where
  /-- last in, first out: the reference value -/
  | lifo
  /-- first in, first out: the alternative discipline (92_eei_decisions D14) -/
  | fifo
  deriving DecidableEq, Repr

/-- The parameters of R4. -/
structure Config where
  /-- `CELL_BITS`, the width W of a cell, of `rb` and of every ALU operand and result -/
  cellBits : Nat
  /-- `MEM_LIMIT`, the number of addressable cells; `none` is unbounded -/
  memLimit : Option Nat
  /-- `CHAN_DEPTH`, the most values a channel holds; `none` is unbounded -/
  chanDepth : Option Nat
  /-- `CHANNEL_ORDER` -/
  order : ChannelOrder
  /-- `SIG_IN`, the run result code for SuspendedOnInput -/
  sigIn : Int
  /-- `SIG_OUT`, the run result code for SuspendedOnOutput -/
  sigOut : Int
  deriving DecidableEq, Repr

/-- The reference values of R4. -/
def Config.reference : Config :=
  { cellBits := 64, memLimit := none, chanDepth := none, order := .lifo, sigIn := 1, sigOut := 2 }

/-- `SIG_HALT` = 0, no parameter (R4; 40_engine R67). -/
def sigHalt : Int := 0

/-- The constraints R4 puts on the parameters. -/
structure Config.Ok (c : Config) : Prop where
  bits : 64 ≤ c.cellBits
  inNonzero : c.sigIn ≠ 0
  outNonzero : c.sigOut ≠ 0
  distinct : c.sigIn ≠ c.sigOut
  limit : ∀ l, c.memLimit = some l → 1 ≤ l

end Sys2Proof
end

