-- ==== Sys2Proof/Syntax.lean ====
section
/-! DEFINITION. The ten instructions with their operands, as spec 30_encoding R42, R43 and opcode_table.json give them,
and the four reasons a word is no instruction (60_exceptions R92). -/

namespace Sys2Proof

/-- The three addressing modes (30_encoding R45). -/
inductive Mode where
  /-- mode 0: the value is `M[lit]`; as a destination, cell `lit` -/
  | position
  /-- mode 1: the value is `lit`; as a destination, cell `lit`, as mode 0 (R49, 90_conflicts C2) -/
  | immediate
  /-- mode 2: the value is `M[rb + lit]`; as a destination, cell `rb + lit` -/
  | relative
  deriving DecidableEq, Repr

/-- One operand: its mode digit and its literal word, a whole signed cell (R42, R45). -/
structure Operand where
  mode : Mode
  lit : Int
  deriving DecidableEq, Repr

/-- The instructions of R43, one constructor per row of the opcode table, operands in the table's order. -/
inductive Instr where
  /-- Add, opcode 1: operands a, b, destination d (R78) -/
  | add (a b d : Operand)
  /-- Multiply, opcode 2 (R79) -/
  | mul (a b d : Operand)
  /-- Input, opcode 3: destination d (R89) -/
  | inp (d : Operand)
  /-- Output, opcode 4: operand a (R90) -/
  | out (a : Operand)
  /-- JumpIfTrue, opcode 5: condition c, target t (R83) -/
  | jt (c t : Operand)
  /-- JumpIfFalse, opcode 6 (R84) -/
  | jf (c t : Operand)
  /-- LessThan, opcode 7 (R80) -/
  | lt (a b d : Operand)
  /-- Equals, opcode 8 (R81) -/
  | eq (a b d : Operand)
  /-- AdjustRelativeBase, opcode 9: operand a (R85) -/
  | arb (a : Operand)
  /-- Halt, opcode 99 (R91) -/
  | hlt
  deriving DecidableEq, Repr

/-- Why a word is no instruction: the subkinds of DecodeFault (60_exceptions R92). -/
inductive DecodeSubkind where
  /-- `w < 0` (30_encoding R41) -/
  | negativeWord
  /-- `w mod 100` is none of the ten opcodes (R54) -/
  | badOpcode
  /-- an operand's mode digit is none of 0, 1, 2 (R55) -/
  | badMode
  /-- a non-zero digit stands above the last operand's mode (R56) -/
  | extraModeDigits
  deriving DecidableEq, Repr

end Sys2Proof
end

