-- ==== Sys2Proof/WellFormed.lean ====
section
/-! DEFINITION. What makes an instruction well formed: each literal word is a whole W-bit signed cell, so it is
representable (spec 30_encoding R42, R45, R57; 00_scope R5). Modes and operand counts are right by construction; mode 1
on a destination is legal (R49, 90_conflicts C2). -/

namespace Sys2Proof

/-- The operand's literal word fits a W-bit cell (R45, R57). -/
def Operand.wf (w : Nat) (o : Operand) : Bool := decide (Fits w o.lit)

/-- Every literal word of the instruction fits a W-bit cell. -/
def Instr.wf (w : Nat) : Instr → Bool
  | .add a b d => a.wf w && b.wf w && d.wf w
  | .mul a b d => a.wf w && b.wf w && d.wf w
  | .inp d => d.wf w
  | .out a => a.wf w
  | .jt c t => c.wf w && t.wf w
  | .jf c t => c.wf w && t.wf w
  | .lt a b d => a.wf w && b.wf w && d.wf w
  | .eq a b d => a.wf w && b.wf w && d.wf w
  | .arb a => a.wf w
  | .hlt => true

end Sys2Proof
end

