-- ==== Sys2Proof/Decode.lean ====
section
/-! DEFINITION. Decoding an instruction word and its literal words, and encoding (spec 30_encoding R41 to R44, R51, R54
to R60).

This file is the word-level part of the spec's `Decode`: which instruction the cells at `ip` spell, or which subkind of
DecodeFault the word raises. Fetching the literal words and resolving the operands, with their faults, is
Machine/Operands.lean. -/

namespace Sys2Proof

/-- `digit(v, i) = (v div 10^i) mod 10` (00_scope R6). -/
def digit (v i : Nat) : Nat := v / 10 ^ i % 10

/-- The mode a mode digit names; 3 to 9 name none (R45, R55). -/
def modeOfDigit (n : Nat) : Option Mode :=
  if n = 0 then some .position else if n = 1 then some .immediate else if n = 2 then some .relative else none

/-- The digit of a mode (R45). -/
def Mode.digit : Mode → Nat
  | .position => 0
  | .immediate => 1
  | .relative => 2

/-- The mode of operand `i` (counted from 1) in `modes = w div 100`: `digit(modes, i - 1)` (R42). -/
def operandMode (modes i : Nat) : Option Mode := modeOfDigit (Sys2Proof.digit modes (i - 1))

/-- Format F0 (HLT): no mode digit at all (R42, R56). -/
def decodeF0 (i : Instr) (modes : Nat) : Except DecodeSubkind Instr :=
  if modes = 0 then .ok i else .error .extraModeDigits

/-- Format F1 (IN, OUT, ARB): one operand, whose literal word is `lit 1` (R42, R51). -/
def decodeF1 (mk : Operand → Instr) (modes : Nat) (lit : Nat → Int) : Except DecodeSubkind Instr :=
  match operandMode modes 1 with
  | none => .error .badMode
  | some m₁ => if modes / 10 = 0 then .ok (mk ⟨m₁, lit 1⟩) else .error .extraModeDigits

/-- Format F2 (JT, JF): two operands (R42, R51). -/
def decodeF2 (mk : Operand → Operand → Instr) (modes : Nat) (lit : Nat → Int) : Except DecodeSubkind Instr :=
  match operandMode modes 1, operandMode modes 2 with
  | some m₁, some m₂ =>
    if modes / 100 = 0 then .ok (mk ⟨m₁, lit 1⟩ ⟨m₂, lit 2⟩) else .error .extraModeDigits
  | _, _ => .error .badMode

/-- Format F3 (ADD, MUL, LT, EQ): three operands (R42, R51). -/
def decodeF3 (mk : Operand → Operand → Operand → Instr) (modes : Nat) (lit : Nat → Int) :
    Except DecodeSubkind Instr :=
  match operandMode modes 1, operandMode modes 2, operandMode modes 3 with
  | some m₁, some m₂, some m₃ =>
    if modes / 1000 = 0 then .ok (mk ⟨m₁, lit 1⟩ ⟨m₂, lit 2⟩ ⟨m₃, lit 3⟩) else .error .extraModeDigits
  | _, _, _ => .error .badMode

/-- The opcode map (R43) for a non-negative word with `opcode = w mod 100` and `modes = w div 100`; any opcode
outside the ten is BadOpcode (R54). The numbers are the spec's, from general knowledge (log 11). -/
def decodeOpcode (opcode modes : Nat) (lit : Nat → Int) : Except DecodeSubkind Instr :=
  match opcode with
  | 1 => decodeF3 .add modes lit
  | 2 => decodeF3 .mul modes lit
  | 3 => decodeF1 .inp modes lit
  | 4 => decodeF1 .out modes lit
  | 5 => decodeF2 .jt modes lit
  | 6 => decodeF2 .jf modes lit
  | 7 => decodeF3 .lt modes lit
  | 8 => decodeF3 .eq modes lit
  | 9 => decodeF1 .arb modes lit
  | 99 => decodeF0 .hlt modes
  | _ => .error .badOpcode

/-- The instruction that the word `w` and the literal words `lit 1`, `lit 2`, `lit 3` behind it spell, or the
DecodeFault subkind of `w`, checked in the order of R51: negative word, opcode, operand modes, extra digits. -/
def decodeWith (w : Int) (lit : Nat → Int) : Except DecodeSubkind Instr :=
  if w < 0 then .error .negativeWord else decodeOpcode (w.toNat % 100) (w.toNat / 100) lit

/-- Decode a list of cells, the first of them the instruction word. Cells past the end of the list read 0, as memory
past its length does (20_memory R26), so this is total. -/
def decode (cells : List Int) : Except DecodeSubkind Instr :=
  decodeWith (cells.getD 0 0) (fun i => cells.getD i 0)

/-! ## Encoding (R42, R43, R59) -/

/-- The opcode of an instruction (R43). -/
def Instr.opcode : Instr → Nat
  | .add .. => 1
  | .mul .. => 2
  | .inp _ => 3
  | .out _ => 4
  | .jt .. => 5
  | .jf .. => 6
  | .lt .. => 7
  | .eq .. => 8
  | .arb _ => 9
  | .hlt => 99

/-- The operands in order 1 .. count (R43). -/
def Instr.operands : Instr → List Operand
  | .add a b d => [a, b, d]
  | .mul a b d => [a, b, d]
  | .inp d => [d]
  | .out a => [a]
  | .jt c t => [c, t]
  | .jf c t => [c, t]
  | .lt a b d => [a, b, d]
  | .eq a b d => [a, b, d]
  | .arb a => [a]
  | .hlt => []

/-- The length in cells: `1 + count` (R44). -/
def Instr.length (i : Instr) : Nat := 1 + i.operands.length

/-- The mode digits of the operands as one number, operand 1 least significant: `m_1 + 10 m_2 + 100 m_3`. -/
def modeDigits : List Operand → Nat
  | [] => 0
  | o :: os => o.mode.digit + 10 * modeDigits os

/-- The instruction word `op + 100 m_1 + 1000 m_2 + 10000 m_3` (R59). -/
def Instr.word (i : Instr) : Nat := i.opcode + 100 * modeDigits i.operands

/-- The cells of an instruction: its word, then its literal words in order (R59). -/
def encode (i : Instr) : List Int := (i.word : Int) :: i.operands.map (·.lit)

/-! ## Pseudo-instructions (R60) -/

/-- The operand `[n]`, position (R58). -/
def Operand.pos (n : Int) : Operand := ⟨.position, n⟩

/-- The operand `#n`, immediate (R58). -/
def Operand.imm (n : Int) : Operand := ⟨.immediate, n⟩

/-- The operand `[rb+n]`, relative (R58). -/
def Operand.rel (n : Int) : Operand := ⟨.relative, n⟩

/-- `JMP t` is `JT #1, t` (R60). -/
def Instr.jmp (t : Operand) : Instr := .jt (.imm 1) t

/-- `NOP` is `JT #0, #0` (R60). -/
def Instr.nop : Instr := .jt (.imm 0) (.imm 0)

/-- `MOV s, d` is `ADD s, #0, d` (R60). -/
def Instr.mov (s d : Operand) : Instr := .add s (.imm 0) d

/-- `CLR d` is `ADD #0, #0, d` (R60). -/
def Instr.clr (d : Operand) : Instr := .add (.imm 0) (.imm 0) d

/-- `NEG s, d` is `MUL s, #-1, d` (R60). -/
def Instr.neg (s d : Operand) : Instr := .mul s (.imm (-1)) d

/-! ## The opcode table's numbering -/

/-- The signed value of a cell whose two's-complement bits are `n < 2^bits`. -/
def signedCell (bits n : Nat) : Int := if n < 2 ^ (bits - 1) then (n : Int) else (n : Int) - ((2 ^ bits : Nat) : Int)

/-- The four cells (the longest instruction) that a table word of `nbits` bits fills, least significant cell first, a
cell having the reference width (R4); every bit above `nbits` is 0. The table's words are numbers whose bits the host
counts from the first cell's least significant bit (log 5). -/
def tableCells (nbits w : Nat) : List Int :=
  let v := w % 2 ^ nbits
  let bits := Config.reference.cellBits
  [signedCell bits (v % 2 ^ bits), signedCell bits (v / 2 ^ bits % 2 ^ bits),
    signedCell bits (v / 2 ^ (2 * bits) % 2 ^ bits), signedCell bits (v / 2 ^ (3 * bits) % 2 ^ bits)]

/-- The instruction the decoder reads from a word of the opcode table, `none` where it refuses. -/
def decodeTableWord (nbits w : Nat) : Option Instr :=
  match decode (tableCells nbits w) with
  | .ok i => some i
  | .error _ => none

end Sys2Proof
end

