-- ==== Sys2Proof/Machine/State.lean ====
section
/-! DEFINITION. The state of the machine as plain data: Engines (spec 10_state R15 to R22), channels (R23, R24), the run
in progress (40_engine R63), the host's commands still to come and the results it has been given (R71), and the state
after reset. -/

namespace Sys2Proof.Machine

/-- Memory as a list of (address, value) pairs, addresses strictly rising, no value 0; an address not listed reads 0
(20_memory R26; log 1). A cell is a whole W-bit value, never a byte (R31). -/
abbrev Memory := List (Nat × Int)

/-- The seven kinds of fault (60_exceptions R92). -/
inductive FaultKind where
  | decodeFault | addressFault | channelUnderflow | malformedProgramText | overflowFault | capacityFault
  | channelOverflow
  deriving DecidableEq, Repr

/-- An Engine fault with the information R93 records. -/
inductive EngineFault where
  /-- the subkind and the instruction word as fetched -/
  | decode (sub : DecodeSubkind) (w : Int)
  /-- the offending address or target, negative -/
  | address (a : Int)
  /-- Input with an empty non-blocking input channel -/
  | channelUnderflow
  /-- the opcode of the faulting instruction: 1, 2 or 9 -/
  | overflow (opcode : Nat)
  /-- the offending address or target, `>= MEM_LIMIT` -/
  | capacity (a : Int)
  /-- Output on a full channel -/
  | channelOverflow
  deriving DecidableEq, Repr

/-- The fault record `f = (kind, ip_f, info)` (10_state R20, 60_exceptions R93). -/
structure FaultRecord where
  /-- kind and info -/
  cause : EngineFault
  /-- `ip_f`, the address of the faulting instruction's word -/
  ip : Nat
  deriving DecidableEq, Repr

/-- The status of an Engine (10_state R18). -/
inductive Status where
  | running
  | halted
  | suspendedOnInput
  | suspendedOnOutput
  | faulted (f : FaultRecord)
  deriving DecidableEq, Repr

/-- One Engine: `(M, len, ip, rb, status)` (10_state R16 to R22). -/
structure Engine where
  /-- memory `M` (R21) -/
  mem : Memory
  /-- the hidden memory length `len` (R22) -/
  len : Nat
  /-- the instruction pointer `ip` (R16) -/
  ip : Nat
  /-- the relative base `rb` (R17) -/
  rb : Int
  /-- the status (R18) -/
  status : Status
  deriving DecidableEq, Repr

/-- A channel: its contents, oldest value first, and its blocking flag (10_state R23, R24). -/
structure Channel where
  contents : List Int
  blocking : Bool
  deriving DecidableEq, Repr

/-- The run in progress: the Engine inside `run()` and the two channels bound to it (40_engine R63), by handle. The
same channel may be both (R63). -/
structure Run where
  engine : Nat
  inp : Nat
  out : Nat
  deriving DecidableEq, Repr

/-- The host's commands (40_engine R71). Engines and channels are named by the handles `NEW` and `NEW_CHANNEL`
returned. -/
inductive Command where
  /-- `NEW(text)` -/
  | new (text : List Char)
  /-- `NEW_CHANNEL(blocking)` -/
  | newChannel (blocking : Bool)
  /-- `PUSH(ch, v)` -/
  | push (ch : Nat) (v : Int)
  /-- `POP(ch)` -/
  | pop (ch : Nat)
  /-- `CONTENTS(ch)` -/
  | contents (ch : Nat)
  /-- `RUN(e, in, out)` -/
  | run (e inp out : Nat)
  /-- `READ_MEM(e, a)` -/
  | readMem (e : Nat) (a : Int)
  /-- `DISCARD(e)` -/
  | discard (e : Nat)
  deriving DecidableEq, Repr

/-- The faults of host commands (60_exceptions R97). -/
inductive HostFault where
  /-- `NEW`: the token with this index does not parse (70_reset_and_hazards R105) -/
  | malformedProgramText (token : Nat)
  /-- `NEW`: more than `MEM_LIMIT` integers; the info is n - 1 (R106) -/
  | capacity (a : Nat)
  /-- `POP` of an empty channel -/
  | channelUnderflow
  /-- `PUSH` onto a full channel -/
  | channelOverflow
  deriving DecidableEq, Repr

/-- What a command gives the host (40_engine R67, R71). -/
inductive Result where
  /-- `NEW`: the new Engine's handle -/
  | engine (handle : Nat)
  /-- `NEW_CHANNEL`: the new channel's handle -/
  | channel (handle : Nat)
  /-- `PUSH`, `DISCARD`: done -/
  | ok
  /-- `POP`, `READ_MEM`: a value -/
  | value (v : Int)
  /-- `CONTENTS`: the values, oldest first -/
  | contents (vs : List Int)
  /-- `RUN`: `SIG_HALT`, `SIG_IN` or `SIG_OUT` -/
  | signal (code : Int)
  /-- `RUN`: `Fault(f)`, distinct from every signal (R67) -/
  | fault (f : FaultRecord)
  /-- the command failed with a fault of R97 -/
  | hostFault (f : HostFault)
  /-- the command was refused: `READ_MEM` of a negative address (R72); a handle that names nothing (log 7); `PUSH` of
  a value outside the range (log 8) -/
  | refused
  deriving DecidableEq, Repr

/-- The whole machine: the block and what the host has asked of it. -/
structure State where
  /-- the parameters of 00_scope R4, written by no step (log 2) -/
  cfg : Config
  /-- the Engines by handle; `none` where one was discarded (10_state R25) -/
  engines : List (Option Engine)
  /-- the channels by handle (10_state R23) -/
  channels : List Channel
  /-- the run in progress, if any (40_engine R63, R69) -/
  running : Option Run
  /-- the host's commands still to come, the next one first (log 6) -/
  commands : List Command
  /-- the results given so far, the oldest first (log 17) -/
  results : List Result
  deriving DecidableEq, Repr

/-- Why the model stops. Neither case is a behaviour of the block: no state that satisfies `State.Inv` reaches one (an
Engine fault of the spec is a NEXT state, 60_exceptions R95). -/
inductive Fault where
  /-- Raised by every meaning when no run is in progress, or the run names no live Engine: an Engine executes only
  inside `run()` (00_scope R9). Safe (log 9). -/
  | noRun
  /-- Raised by IN and OUT when the run names a channel that does not exist. Safe (log 9). -/
  | noChannel
  deriving DecidableEq, Repr

/-- Why the model has no meaning for an instruction. -/
inductive Refusal where
  /-- Raised only by an arm of `exec` that has no meaning yet; no arm is left so. Safe. -/
  | notModelled (mnemonic : String)
  deriving DecidableEq, Repr

/-- The machine after reset: one Engine (handle 0) with the reset values of 70_reset_and_hazards R106 for a program of
no words, no channel and no run, no command given yet, in the reference configuration (log 3). -/
def State.reset : State :=
  { cfg := Config.reference
    engines := [some { mem := [], len := 0, ip := 0, rb := 0, status := .running }]
    channels := []
    running := none
    commands := []
    results := [] }

end Sys2Proof.Machine
end

