-- ==== Sys2Proof/Machine/Flags.lean ====
section
/-! DEFINITION. The results of the arithmetic instructions and their range check. The machine has NO flags and no
condition codes (spec 10_state R15): LT and EQ deliver 0 or 1 as a value, and a result outside the cell range is an
OverflowFault (41_alu R76, R77). -/

namespace Sys2Proof.Machine

/-- An exact result `r` of the instruction with this opcode: kept if representable, else OverflowFault (R77). -/
def checkedResult (c : Config) (opcode : Nat) (r : Int) : Except EngineFault Int :=
  if Fits c.cellBits r then .ok r else .error (.overflow opcode)

/-- ADD: the exact sum (R78). -/
def addResult (c : Config) (a b : Int) : Except EngineFault Int := checkedResult c 1 (a + b)

/-- MUL: the exact product (R79). -/
def mulResult (c : Config) (a b : Int) : Except EngineFault Int := checkedResult c 2 (a * b)

/-- LT: 1 if `a < b` signed, else 0; it cannot overflow (R80). -/
def ltResult (a b : Int) : Except EngineFault Int := .ok (if a < b then 1 else 0)

/-- EQ: 1 if `a = b`, else 0; it cannot overflow (R81). -/
def eqResult (a b : Int) : Except EngineFault Int := .ok (if a = b then 1 else 0)

/-- ARB: the exact new relative base (43_relbase R85). -/
def rbResult (c : Config) (rb a : Int) : Except EngineFault Int := checkedResult c 9 (rb + a)

end Sys2Proof.Machine
end

