-- ==== Sys2Proof/Machine/Memory.lean ====
section
/-! DEFINITION. The cells of one memory: reading, writing in canonical form, the canonical form itself, and the memory
a program is loaded into (spec 20_memory R26, R29, R30; 70_reset_and_hazards R106). The address check and growth are in
Machine/Ops.lean. -/

namespace Sys2Proof.Machine

/-- `M[a]`: the listed value, and 0 where the address is not listed (R26: "reading a before any write yields 0"). -/
def Memory.read : Memory → Nat → Int
  | [], _ => 0
  | (b, x) :: m, a => if b = a then x else Memory.read m a

/-- `M[a] <- v`, keeping the list canonical: addresses rising, and no entry for the value 0. -/
def Memory.write : Memory → Nat → Int → Memory
  | [], a, v => if v = 0 then [] else [(a, v)]
  | (b, x) :: m, a, v =>
    if a < b then (if v = 0 then (b, x) :: m else (a, v) :: (b, x) :: m)
    else if a = b then (if v = 0 then m else (a, v) :: m)
    else (b, x) :: Memory.write m a v

/-- The canonical form: addresses strictly rising, no listed value equal to what an unlisted address reads as. -/
abbrev Memory.wf (m : Memory) : Prop :=
  m.Pairwise (fun p q => p.1 < q.1) ∧ ∀ p ∈ m, p.2 ≠ 0

/-- The memory that holds `vs` at `base, base + 1, ...` and 0 elsewhere (R106). -/
def Memory.ofWords (base : Nat) : List Int → Memory
  | [] => []
  | v :: vs => if v = 0 then Memory.ofWords (base + 1) vs else (base, v) :: Memory.ofWords (base + 1) vs

/-- Store `vs` at `a, a + 1, ...`. -/
def Memory.writeMany (m : Memory) (a : Nat) : List Int → Memory
  | [] => m
  | v :: vs => Memory.writeMany (m.write a v) (a + 1) vs

end Sys2Proof.Machine
end

