-- ==== Sys2Proof/Machine/Ops.lean ====
section
/-! DEFINITION. The named operations every meaning is built from: the address check and memory accesses (spec 20_memory
R27 to R30), the channel primitives (44_io R86 to R88), the Engine inside `run()`, and the ways an instruction ends
(40_engine R65; 60_exceptions R95). There is no return from a fault (60_exceptions R96), so none stands beside fault
entry. -/

namespace Sys2Proof.Machine

/-- What a step of this machine answers. -/
abbrev Out := Host.Outcome State Fault Refusal

/-! ## Addresses and cells -/

/-- `a < MEM_LIMIT`, always so when MEM_LIMIT is unbounded (00_scope R4). -/
def addressable (c : Config) (a : Nat) : Bool :=
  match c.memLimit with
  | none => true
  | some l => decide (a < l)

/-- `CheckAddr(a)` (20_memory R27): the address as a natural number, or the fault. -/
def checkAddr (c : Config) (a : Int) : Except EngineFault Nat :=
  if a < 0 then .error (.address a)
  else if addressable c a.toNat then .ok a.toNat
  else .error (.capacity a)

/-- Auto-growth by an access at `a` (R28): `if a >= len then len <- a + 1`. The cells grown hold 0 already. -/
def Engine.grow (e : Engine) (a : Nat) : Engine := { e with len := if e.len ≤ a then a + 1 else e.len }

/-- `MemWrite(a, 1, v)` at an address that passed `CheckAddr` (R30). -/
def Engine.store (e : Engine) (a : Nat) (v : Int) : Engine :=
  { e.grow a with mem := e.mem.write a v }

/-- What reading gives: a value and the Engine after growth, or a fault and the Engine as the reads before it left it
(60_exceptions R95: growth is the only effect that may remain; log 10). -/
inductive Access (α : Type) where
  | ok (v : α) (e : Engine)
  | raise (f : EngineFault) (e : Engine)
  deriving DecidableEq, Repr

/-- Go on with the value and the Engine, or keep the fault. -/
def Access.andThen {α β : Type} (x : Access α) (k : α → Engine → Access β) : Access β :=
  match x with
  | .ok v e => k v e
  | .raise f e => .raise f e

/-- `MemRead(a, 1)` (20_memory R29). -/
def memRead (c : Config) (e : Engine) (a : Int) : Access Int :=
  match checkAddr c a with
  | .error f => .raise f e
  | .ok n => .ok (e.mem.read n) (e.grow n)

/-! ## Channels -/

/-- `Empty(ch)` (44_io R86). -/
def Channel.isEmpty (ch : Channel) : Bool := ch.contents.isEmpty

/-- `Full(ch)`: it holds CHAN_DEPTH values; never so when CHAN_DEPTH is unbounded (R86). -/
def Channel.isFull (c : Config) (ch : Channel) : Bool :=
  match c.chanDepth with
  | none => false
  | some d => decide (d ≤ ch.contents.length)

/-- `Push(ch, v)`: `v` becomes the newest value; `none` is ChannelOverflow (R87). -/
def Channel.push (c : Config) (ch : Channel) (v : Int) : Option Channel :=
  if ch.isFull c then none else some { ch with contents := ch.contents ++ [v] }

/-- `Pop(ch)`: from the end CHANNEL_ORDER names, LIFO the newest value, FIFO the oldest; `none` is ChannelUnderflow
(R88). -/
def Channel.pop (c : Config) (ch : Channel) : Option (Int × Channel) :=
  match c.order with
  | .lifo =>
    match ch.contents.getLast? with
    | none => none
    | some v => some (v, { ch with contents := ch.contents.dropLast })
  | .fifo =>
    match ch.contents with
    | [] => none
    | v :: vs => some (v, { ch with contents := vs })

/-! ## State accessors -/

/-- The live Engine with this handle. -/
def State.engine? (s : State) (h : Nat) : Option Engine := s.engines.getD h none

/-- Put an Engine back under its handle. -/
def State.setEngine (s : State) (h : Nat) (e : Engine) : State := { s with engines := s.engines.set h (some e) }

/-- Put a channel back under its handle. -/
def State.setChannel (s : State) (h : Nat) (ch : Channel) : State := { s with channels := s.channels.set h ch }

/-- Give the host a result. -/
def State.report (s : State) (r : Result) : State := { s with results := s.results ++ [r] }

/-- The run in progress with its Engine (40_engine R63). -/
def State.active (s : State) : Option (Run × Engine) :=
  match s.running with
  | none => none
  | some r =>
    match s.engine? r.engine with
    | none => none
    | some e => some (r, e)

/-! ## How an instruction ends -/

/-- `Continue`: the instruction is complete and the run goes on (40_engine R65). -/
def State.goOn (s : State) (r : Run) (e : Engine) : State := s.setEngine r.engine e

/-- The run ends: the Engine takes the status `st` and the host gets the result (R65, R70). -/
def State.endRun (s : State) (r : Run) (e : Engine) (st : Status) (result : Result) : State :=
  { (s.setEngine r.engine { e with status := st }).report result with running := none }

/-- TAKING A FAULT (60_exceptions R95): `status <- Faulted((kind, ip, info))` with the `ip` of the faulting instruction,
and `run()` returns `Fault(f)`. Memory, `rb`, `ip` and the channels keep their values; control goes to the host. -/
def State.takeFault (s : State) (r : Run) (e : Engine) (f : EngineFault) : State :=
  s.endRun r e (.faulted ⟨f, e.ip⟩) (.fault ⟨f, e.ip⟩)

/-- `ip <- ip + n`, the advance by the instruction's length (30_encoding R44). -/
def Engine.advance (e : Engine) (n : Nat) : Engine := { e with ip := e.ip + n }

/-- Decode, then Execute (40_engine R61): resolve the operands of the Engine inside `run()` with `phase`, taking the
first fault; then `k` has the run, the Engine and the resolved operands. -/
def State.decodeThen {α : Type} (s : State) (phase : Config → Engine → Access α) (k : Run → Engine → α → Out) : Out :=
  match s.active with
  | none => .fault .noRun
  | some (r, e) =>
    match phase s.cfg e with
    | .raise f e' => .next (s.takeFault r e' f)
    | .ok v e' => k r e' v

/-! ## Fault codes (60_exceptions R92) -/

/-- The kind of an Engine fault. -/
def EngineFault.kind : EngineFault → FaultKind
  | .decode .. => .decodeFault
  | .address _ => .addressFault
  | .channelUnderflow => .channelUnderflow
  | .overflow _ => .overflowFault
  | .capacity _ => .capacityFault
  | .channelOverflow => .channelOverflow

/-- The kind of a host fault (R97). -/
def HostFault.kind : HostFault → FaultKind
  | .malformedProgramText _ => .malformedProgramText
  | .capacity _ => .capacityFault
  | .channelUnderflow => .channelUnderflow
  | .channelOverflow => .channelOverflow

/-- The code of a fault kind (R92). -/
def FaultKind.code : FaultKind → Nat
  | .decodeFault => 1
  | .addressFault => 2
  | .channelUnderflow => 3
  | .malformedProgramText => 4
  | .overflowFault => 5
  | .capacityFault => 6
  | .channelOverflow => 7

/-- The number of a DecodeFault subkind (R92). -/
def subkindCode : DecodeSubkind → Nat
  | .negativeWord => 1
  | .badOpcode => 2
  | .badMode => 3
  | .extraModeDigits => 4

end Sys2Proof.Machine
end

