-- ==== Sys2Proof/Machine/Operands.lean ====
section
/-! DEFINITION. Fetching the literal words and resolving the operands, operand by operand in order, each form of spec
30_encoding R45 to R49 and the order of R51. All of it comes before the instruction's first write (R52).

The instruction `exec` is given carries its literal words, which the fetch read from memory; the ACCESS to each literal
cell, with its capacity check and growth, is made here, where R51 makes it: just before that operand is resolved
(log 14). -/

namespace Sys2Proof.Machine

/-- `lit_i = MemRead(ip + i, 1)` (R51): the access to literal cell `i`, whose value is `lit`. -/
def fetchLit (c : Config) (e : Engine) (i : Nat) (lit : Int) : Access Int :=
  match checkAddr c ((e.ip + i : Nat) : Int) with
  | .error f => .raise f e
  | .ok n => .ok lit (e.grow n)

/-- The value of read operand `i` (R46, R47, R48). -/
def readOperand (c : Config) (e : Engine) (i : Nat) (o : Operand) : Access Int :=
  (fetchLit c e i o.lit).andThen fun lit e₁ =>
    match o.mode with
    | .position => memRead c e₁ lit
    | .immediate => .ok lit e₁
    | .relative => memRead c e₁ (e₁.rb + lit)

/-- The effective address of destination operand `i`, checked now; the cell itself is not read (R49). Mode 1 acts as
mode 0 (90_conflicts C2). -/
def destOperand (c : Config) (e : Engine) (i : Nat) (o : Operand) : Access Nat :=
  (fetchLit c e i o.lit).andThen fun lit e₁ =>
    let ea := match o.mode with
      | .relative => e₁.rb + lit
      | .position | .immediate => lit
    match checkAddr c ea with
    | .error f => .raise f e₁
    | .ok n => .ok n e₁

/-- The operands of a three-operand instruction: two values and a destination address (format F3, R43). -/
def aluOperands (a b d : Operand) (c : Config) (e : Engine) : Access (Int × Int × Nat) :=
  (readOperand c e 1 a).andThen fun va e₁ =>
    (readOperand c e₁ 2 b).andThen fun vb e₂ =>
      (destOperand c e₂ 3 d).andThen fun ea e₃ => .ok (va, vb, ea) e₃

/-- The operands of a jump: the condition's value and the target (format F2, R43). -/
def jumpOperands (x t : Operand) (c : Config) (e : Engine) : Access (Int × Int) :=
  (readOperand c e 1 x).andThen fun vc e₁ =>
    (readOperand c e₁ 2 t).andThen fun vt e₂ => .ok (vc, vt) e₂

/-- The one read operand of OUT and ARB (format F1, R43). -/
def sourceOperand (a : Operand) (c : Config) (e : Engine) : Access Int := readOperand c e 1 a

/-- The one destination operand of IN (format F1, R43). -/
def targetOperand (d : Operand) (c : Config) (e : Engine) : Access Nat := destOperand c e 1 d

/-- HLT has no operand to resolve (format F0, R43). -/
def noOperand (_ : Config) (e : Engine) : Access Unit := .ok () e

end Sys2Proof.Machine
end

