-- ==== Sys2Proof/Machine/Alu.lean ====
section
/-! DEFINITION. ADD, MUL, LT, EQ (spec 41_alu). -/

namespace Sys2Proof.Machine

/-- The shared shape of R78 to R81: resolve, compute, raise or write the result, `ip <- ip + 4`, Continue. -/
def aluOp (result : Config → Int → Int → Except EngineFault Int) (a b d : Operand) (s : State) : Out :=
  s.decodeThen (aluOperands a b d) fun r e v =>
    match result s.cfg v.1 v.2.1 with
    | .error f => .next (s.takeFault r e f)
    | .ok x => .next (s.goOn r ((e.store v.2.2 x).advance 4))

/-- ADD (R78). -/
def execAdd (a b d : Operand) (s : State) : Out := aluOp addResult a b d s

/-- MUL (R79). -/
def execMul (a b d : Operand) (s : State) : Out := aluOp mulResult a b d s

/-- LT (R80). -/
def execLt (a b d : Operand) (s : State) : Out := aluOp (fun _ => ltResult) a b d s

/-- EQ (R81). -/
def execEq (a b d : Operand) (s : State) : Out := aluOp (fun _ => eqResult) a b d s

end Sys2Proof.Machine
end

