-- ==== Sys2Proof/Machine/Halt.lean ====
section
/-! DEFINITION. HLT, the only system instruction (spec 45_halt). -/

namespace Sys2Proof.Machine

/-- HLT: `status <- Halted`, the run returns SIG_HALT = 0, `ip` stays at the Halt word (R91). -/
def execHlt (s : State) : Out :=
  s.decodeThen noOperand fun r e _ => .next (s.endRun r e .halted (.signal sigHalt))

end Sys2Proof.Machine
end

