-- ==== Sys2Proof/Machine/Io.lean ====
section
/-! DEFINITION. IN and OUT, the only instructions that touch a channel or suspend a run (spec 44_io). -/

namespace Sys2Proof.Machine

/-- After an Input or Output on channel `ch`: suspend if the channel is blocking (YieldIn, YieldOut), else go on
(R89, R90; 40_engine R66). -/
def yieldIf (s : State) (r : Run) (e : Engine) (ch : Channel) (st : Status) (code : Int) : Out :=
  if ch.blocking then .next (s.endRun r e st (.signal code)) else .next (s.goOn r e)

/-- IN (R89). An empty channel: blocking, the run ends with SIG_IN and nothing done (WaitIn); non-blocking,
ChannelUnderflow. Otherwise pop, store, `ip <- ip + 2`, and suspend if the channel is blocking. -/
def execInp (d : Operand) (s : State) : Out :=
  s.decodeThen (targetOperand d) fun r e ea =>
    match s.channels[r.inp]? with
    | none => .fault .noChannel
    | some ch =>
      match ch.pop s.cfg with
      | none =>
        if ch.blocking then .next (s.endRun r e .suspendedOnInput (.signal s.cfg.sigIn))
        else .next (s.takeFault r e .channelUnderflow)
      | some (v, ch') =>
        yieldIf (s.setChannel r.inp ch') r ((e.store ea v).advance 2) ch .suspendedOnInput s.cfg.sigIn

/-- OUT (R90). Push, `ip <- ip + 2`, and suspend if the channel is blocking; ChannelOverflow if it is full. -/
def execOut (a : Operand) (s : State) : Out :=
  s.decodeThen (sourceOperand a) fun r e v =>
    match s.channels[r.out]? with
    | none => .fault .noChannel
    | some ch =>
      match ch.push s.cfg v with
      | none => .next (s.takeFault r e .channelOverflow)
      | some ch' => yieldIf (s.setChannel r.out ch') r (e.advance 2) ch .suspendedOnOutput s.cfg.sigOut

end Sys2Proof.Machine
end

