-- ==== Sys2Proof/Machine/Jumps.lean ====
section
/-! DEFINITION. JT and JF (spec 42_jumps). -/

namespace Sys2Proof.Machine

/-- The end of a jump: a taken jump checks its target and writes `ip`, faulting with `ip` still at the jump; a jump not
taken advances by 3 and does not look at its target (R82, R83, R84). -/
def branch (s : State) (r : Run) (e : Engine) (taken : Bool) (target : Int) : Out :=
  if taken then
    match checkAddr s.cfg target with
    | .error f => .next (s.takeFault r e f)
    | .ok n => .next (s.goOn r { e with ip := n })
  else .next (s.goOn r (e.advance 3))

/-- JT: jump if the condition is not zero (R83). -/
def execJt (c t : Operand) (s : State) : Out :=
  s.decodeThen (jumpOperands c t) fun r e v => branch s r e (decide (v.1 ≠ 0)) v.2

/-- JF: jump if the condition is zero (R84). -/
def execJf (c t : Operand) (s : State) : Out :=
  s.decodeThen (jumpOperands c t) fun r e v => branch s r e (decide (v.1 = 0)) v.2

end Sys2Proof.Machine
end

