-- ==== Sys2Proof/Machine/RelBase.lean ====
section
/-! DEFINITION. ARB, the only instruction that writes `rb` (spec 43_relbase). -/

namespace Sys2Proof.Machine

/-- ARB: `rb <- rb + a`, exact and range-checked; the operand was read through the old `rb` (R85). -/
def execArb (a : Operand) (s : State) : Out :=
  s.decodeThen (sourceOperand a) fun r e v =>
    match rbResult s.cfg e.rb v with
    | .error f => .next (s.takeFault r e f)
    | .ok x => .next (s.goOn r ({ e with rb := x }.advance 2))

end Sys2Proof.Machine
end

