-- ==== Sys2Proof/Machine/Load.lean ====
section
/-! DEFINITION. Program text and the construction of an Engine (spec 70_reset_and_hazards R105, R106). -/

namespace Sys2Proof.Machine

/-- Whitespace of the grammar: space, tab, CR, LF (R105). -/
def isSpace (ch : Char) : Bool := ch = ' ' || ch = '\t' || ch = '\r' || ch = '\n'

/-- Split at every ',': one more token than there are commas, so "" is one empty token (R105). -/
def splitCommas : List Char → List (List Char)
  | [] => [[]]
  | ch :: cs =>
    if ch = ',' then [] :: splitCommas cs
    else
      match splitCommas cs with
      | [] => [[ch]]
      | t :: ts => (ch :: t) :: ts

/-- A token with leading and trailing whitespace removed (R105). -/
def trimSpaces (t : List Char) : List Char := ((t.dropWhile isSpace).reverse.dropWhile isSpace).reverse

/-- The value of a decimal digit. -/
def digitValue (ch : Char) : Option Nat :=
  if '0'.toNat ≤ ch.toNat ∧ ch.toNat ≤ '9'.toNat then some (ch.toNat - '0'.toNat) else none

/-- The value of the digits `cs` after digits worth `acc`; `none` at a character that is no digit. -/
def digitsFrom (acc : Nat) : List Char → Option Nat
  | [] => some acc
  | ch :: cs =>
    match digitValue ch with
    | none => none
    | some d => digitsFrom (10 * acc + d) cs

/-- `[0-9]+` and its decimal value. -/
def natural (cs : List Char) : Option Nat := if cs.isEmpty then none else digitsFrom 0 cs

/-- `[+-]?[0-9]+` and its decimal value (R105). -/
def signedInteger : List Char → Option Int
  | [] => none
  | ch :: cs =>
    if ch = '+' then (natural cs).map Int.ofNat
    else if ch = '-' then (natural cs).map Int.negOfNat
    else (natural (ch :: cs)).map Int.ofNat

/-- One token: trimmed, a signed integer, representable in W bits; else it fails (R105). -/
def parseToken (w : Nat) (t : List Char) : Option Int :=
  match signedInteger (trimSpaces t) with
  | none => none
  | some v => if Fits w v then some v else none

/-- The tokens from index `j` on; the error is the index of the first token that fails (R105). -/
def parseTokens (w j : Nat) : List (List Char) → Except Nat (List Int)
  | [] => .ok []
  | t :: ts =>
    match parseToken w t with
    | none => .error j
    | some v =>
      match parseTokens w (j + 1) ts with
      | .error k => .error k
      | .ok vs => .ok (v :: vs)

/-- `Parse(text)` (R105). -/
def parseText (w : Nat) (text : List Char) : Except Nat (List Int) := parseTokens w 0 (splitCommas text)

/-- A fresh Engine over the program words: the reset values of R106. -/
def Engine.construct (words : List Int) : Engine :=
  { mem := Memory.ofWords 0 words, len := words.length, ip := 0, rb := 0, status := .running }

/-- A memory of `n` cells is within MEM_LIMIT (R106). -/
def lengthOk (c : Config) (n : Nat) : Bool :=
  match c.memLimit with
  | none => true
  | some l => decide (n ≤ l)

/-- `NEW(text)`: the Engine, or MalformedProgramText(j), or CapacityFault(n - 1) (R105, R106; 60_exceptions R97). -/
def construct (c : Config) (text : List Char) : Except HostFault Engine :=
  match parseText c.cellBits text with
  | .error j => .error (.malformedProgramText j)
  | .ok words =>
    if lengthOk c words.length then .ok (Engine.construct words) else .error (.capacity (words.length - 1))

end Sys2Proof.Machine
end

