-- ==== Sys2Proof/Machine/Driver.lean ====
section
/-! DEFINITION. The host's commands, each one atomic step between runs (spec 40_engine R63, R64, R71, R72; 60_exceptions
R97; 70_reset_and_hazards R106, R107). -/

namespace Sys2Proof.Machine

/-- `NEW(text)`: a new Engine under the next handle, or the fault and no Engine (R71, R97, R106). -/
def State.cmdNew (s : State) (text : List Char) : State :=
  match construct s.cfg text with
  | .error f => s.report (.hostFault f)
  | .ok e => State.report { s with engines := s.engines ++ [some e] } (.engine s.engines.length)

/-- `NEW_CHANNEL(blocking)`: an empty channel under the next handle (R107). -/
def State.cmdNewChannel (s : State) (blocking : Bool) : State :=
  State.report { s with channels := s.channels ++ [⟨[], blocking⟩] } (.channel s.channels.length)

/-- `PUSH(ch, v)` (R71; 44_io R87); a value outside the range is refused (log 8). -/
def State.cmdPush (s : State) (h : Nat) (v : Int) : State :=
  match s.channels[h]? with
  | none => s.report .refused
  | some ch =>
    if Fits s.cfg.cellBits v then
      match ch.push s.cfg v with
      | none => s.report (.hostFault .channelOverflow)
      | some ch' => (s.setChannel h ch').report .ok
    else s.report .refused

/-- `POP(ch)` (R71; 44_io R88). -/
def State.cmdPop (s : State) (h : Nat) : State :=
  match s.channels[h]? with
  | none => s.report .refused
  | some ch =>
    match ch.pop s.cfg with
    | none => s.report (.hostFault .channelUnderflow)
    | some (v, ch') => (s.setChannel h ch').report (.value v)

/-- `CONTENTS(ch)`: the values, oldest first; no effect (R71). -/
def State.cmdContents (s : State) (h : Nat) : State :=
  match s.channels[h]? with
  | none => s.report .refused
  | some ch => s.report (.contents ch.contents)

/-- Run entry (R64): a Halted Engine gives SIG_HALT and a Faulted one its fault, and nothing executes; any other status
becomes Running, the channels are bound (R63), and the steps that follow are the run. -/
def State.cmdRun (s : State) (h inp out : Nat) : State :=
  match s.engine? h, s.channels[inp]?, s.channels[out]? with
  | some e, some _, some _ =>
    match e.status with
    | .halted => s.report (.signal sigHalt)
    | .faulted f => s.report (.fault f)
    | .running | .suspendedOnInput | .suspendedOnOutput =>
      { s.setEngine h { e with status := .running } with running := some ⟨h, inp, out⟩ }
  | _, _, _ => s.report .refused

/-- `READ_MEM(e, a)`: `M[a]`, no growth, in every status; refused for `a < 0` (R72). -/
def State.cmdReadMem (s : State) (h : Nat) (a : Int) : State :=
  match s.engine? h with
  | none => s.report .refused
  | some e => if a < 0 then s.report .refused else s.report (.value (e.mem.read a.toNat))

/-- `DISCARD(e)`: the Engine ceases to exist; channels are not touched (R71; 10_state R25). -/
def State.cmdDiscard (s : State) (h : Nat) : State :=
  match s.engine? h with
  | none => s.report .refused
  | some _ => State.report { s with engines := s.engines.set h none } .ok

/-- Perform one command (R71). -/
def State.perform (s : State) (cmd : Command) : State :=
  match cmd with
  | .new text => s.cmdNew text
  | .newChannel b => s.cmdNewChannel b
  | .push h v => s.cmdPush h v
  | .pop h => s.cmdPop h
  | .contents h => s.cmdContents h
  | .run h inp out => s.cmdRun h inp out
  | .readMem h a => s.cmdReadMem h a
  | .discard h => s.cmdDiscard h

/-- The host's turn: take the next command and perform it; with none to come the block waits, unchanged (60_exceptions
R104; log 6). -/
def hostTurn (s : State) : State :=
  match s.commands with
  | [] => s
  | cmd :: rest => State.perform { s with commands := rest } cmd

end Sys2Proof.Machine
end

