-- ==== Sys2Proof/Machine/Fetch.lean ====
section
/-! DEFINITION. Fetching and decoding the instruction at `ip` of the Engine inside `run()` (spec 30_encoding R50, R51),
and placing an instruction where the next step fetches it. -/

namespace Sys2Proof.Machine

/-- What the fetch gives: an instruction to execute and the state it executes in, or the outcome that ends the step. -/
inductive Fetched where
  | instr (i : Instr) (s : State)
  | stop (o : Out)

/-- `w = MemRead(ip, 1)`, then the word-level checks (R50, R51). The literal words are looked at in the memory the word
was read from; their accesses, with checks and growth, follow operand by operand in `exec` (log 14). -/
def fetch (s : State) : Fetched :=
  match s.active with
  | none => .stop (.fault .noRun)
  | some (r, e) =>
    match memRead s.cfg e e.ip with
    | .raise f e' => .stop (.next (s.takeFault r e' f))
    | .ok w e' =>
      match decodeWith w (fun i => e.mem.read (e.ip + i)) with
      | .error sub => .stop (.next (s.takeFault r e' (.decode sub w)))
      | .ok i => .instr i (s.goOn r e')

/-- Store `cells` from `ip` on, as a program load would. -/
def Engine.place (e : Engine) (cells : List Int) : Engine :=
  { e with mem := e.mem.writeMany e.ip cells, len := if e.len < e.ip + cells.length then e.ip + cells.length else e.len }

/-- Put `cells` where the next step fetches. In a run: at the running Engine's `ip`. Otherwise the first Engine is
given them, is made Running, and a run of it is begun over the first two channels, made (empty, non-blocking) if they do
not exist (log 4). -/
def State.placeCells (s : State) (cells : List Int) : State :=
  match s.active with
  | some (r, e) => s.setEngine r.engine (e.place cells)
  | none =>
    let e := (s.engine? 0).getD { mem := [], len := 0, ip := 0, rb := 0, status := .running }
    { s with
      engines := some { e.place cells with status := .running } :: s.engines.drop 1
      channels := s.channels ++ List.replicate (2 - s.channels.length) { contents := [], blocking := false }
      running := some ⟨0, 0, 1⟩ }

end Sys2Proof.Machine
end

