-- ==== Sys2Proof/Machine/Step.lean ====
section
/-! DEFINITION. One step: an instruction of the run in progress (spec 40_engine R61, R65), else one command of the host
(R9, R69). -/

namespace Sys2Proof.Machine

/-- While a run is in progress, fetch, decode and execute one instruction; otherwise it is the host's turn. -/
def step (s : State) : Host.Outcome State Fault Refusal :=
  match s.running with
  | none => .next (hostTurn s)
  | some _ =>
    match fetch s with
    | .stop o => o
    | .instr i s' => exec i s'

/-- `s` with the opcode table's word `w` of `nbits` bits stored where the next step fetches (log 4, log 5). -/
def State.withFetchWord (s : State) (nbits w : Nat) : State := s.placeCells (tableCells nbits w)

end Sys2Proof.Machine
end

