-- ==== Sys2Proof/Safety.lean ====
section
/-! DEFINITION. The terms claims are stated in: what an operand means and which addresses an instruction checks, in the
spec's order (spec 30_encoding R46 to R51); what becomes of the state when an instruction ends; and the invariant of the
machine. The machine itself uses none of these. -/

namespace Sys2Proof.Machine

/-! ## Operands and addresses, as 30_encoding gives them -/

/-- The cell a read operand reads, none in mode 1 (R46, R47, R48). -/
def readAddr (e : Engine) (o : Operand) : Option Int :=
  match o.mode with
  | .position => some o.lit
  | .immediate => none
  | .relative => some (e.rb + o.lit)

/-- The value of a read operand (R46, R47, R48). -/
def operandValue (e : Engine) (o : Operand) : Int :=
  match o.mode with
  | .position => e.mem.read o.lit.toNat
  | .immediate => o.lit
  | .relative => e.mem.read (e.rb + o.lit).toNat

/-- The effective address of a destination operand (R49). -/
def destAddr (e : Engine) (o : Operand) : Int :=
  match o.mode with
  | .relative => e.rb + o.lit
  | .position | .immediate => o.lit

/-- `CheckAddr(a)` passes (20_memory R27). -/
abbrev AddrOk (c : Config) (a : Int) : Prop := 0 ≤ a ∧ addressable c a.toNat = true

/-- The addresses checked for read operand `i`: its literal word's, then its cell's (R51). -/
def readChecks (e : Engine) (i : Nat) (o : Operand) : List Int :=
  ((e.ip + i : Nat) : Int) :: (readAddr e o).toList

/-- The addresses checked for destination operand `i` (R51). -/
def destChecks (e : Engine) (i : Nat) (o : Operand) : List Int :=
  [((e.ip + i : Nat) : Int), destAddr e o]

/-- Every address `Decode` checks after the instruction word, in the order of R51. -/
def checks (e : Engine) : Instr → List Int
  | .add a b d => readChecks e 1 a ++ readChecks e 2 b ++ destChecks e 3 d
  | .mul a b d => readChecks e 1 a ++ readChecks e 2 b ++ destChecks e 3 d
  | .lt a b d => readChecks e 1 a ++ readChecks e 2 b ++ destChecks e 3 d
  | .eq a b d => readChecks e 1 a ++ readChecks e 2 b ++ destChecks e 3 d
  | .jt c t => readChecks e 1 c ++ readChecks e 2 t
  | .jf c t => readChecks e 1 c ++ readChecks e 2 t
  | .inp d => destChecks e 1 d
  | .out a => readChecks e 1 a
  | .arb a => readChecks e 1 a
  | .hlt => []

/-- Every check of `Decode` passes. -/
abbrev Ready (c : Config) (e : Engine) (i : Instr) : Prop := ∀ a ∈ checks e i, AddrOk c a

/-- The first check that fails, and the fault it raises (R51; 60_exceptions R94). -/
def firstFault (c : Config) : List Int → Option EngineFault
  | [] => none
  | a :: as =>
    match checkAddr c a with
    | .error f => some f
    | .ok _ => firstFault c as

/-- `len` after accesses at these addresses (20_memory R28). -/
def grownLen (len : Nat) (as : List Int) : Nat := as.foldl (fun l a => max l (a.toNat + 1)) len

/-- The destination operand of a writing instruction (R49). -/
def destination : Instr → Option Operand
  | .add _ _ d => some d
  | .mul _ _ d => some d
  | .lt _ _ d => some d
  | .eq _ _ d => some d
  | .inp d => some d
  | .out _ => none
  | .jt _ _ => none
  | .jf _ _ => none
  | .arb _ => none
  | .hlt => none

/-- The operand count of an opcode, `none` for an unrecognised one (R43, R54). -/
def operandCount (opcode : Nat) : Option Nat :=
  if opcode ∈ [1, 2, 7, 8] then some 3
  else if opcode ∈ [5, 6] then some 2
  else if opcode ∈ [3, 4, 9] then some 1
  else if opcode = 99 then some 0
  else none

/-- Operands 1 .. n of the word `w` have mode digits 0, 1 or 2 (R42, R55). -/
abbrev ModesOk (w n : Nat) : Prop := ∀ i < n, digit w (2 + i) ≤ 2

/-! ## What becomes of the state -/

/-- `s'` is `s` with the running Engine replaced by `e'` and the channels by `chs`; the run goes on and everything else
is unchanged. -/
structure Continues (s : State) (r : Run) (e' : Engine) (chs : List Channel) (s' : State) : Prop where
  cfg : s'.cfg = s.cfg
  engine : s'.engine? r.engine = some e'
  others : ∀ h, h ≠ r.engine → s'.engine? h = s.engine? h
  channels : s'.channels = chs
  running : s'.running = s.running
  commands : s'.commands = s.commands
  results : s'.results = s.results

/-- As `Continues`, but the run is over and the host has the result. -/
structure Ends (s : State) (r : Run) (e' : Engine) (chs : List Channel) (result : Result) (s' : State) : Prop where
  cfg : s'.cfg = s.cfg
  engine : s'.engine? r.engine = some e'
  others : ∀ h, h ≠ r.engine → s'.engine? h = s.engine? h
  channels : s'.channels = chs
  running : s'.running = none
  commands : s'.commands = s.commands
  results : s'.results = s.results ++ [result]

/-- The Engine after a writing instruction of `n` cells: `x` at the destination, every other cell, `rb` and the status
as before. -/
structure Wrote (e : Engine) (i : Instr) (d : Operand) (x : Int) (n : Nat) (e' : Engine) : Prop where
  cell : ∀ a, e'.mem.read a = if a = (destAddr e d).toNat then x else e.mem.read a
  len : e'.len = grownLen e.len (checks e i)
  ip : e'.ip = e.ip + n
  rb : e'.rb = e.rb
  status : e'.status = e.status

/-- The Engine after an instruction that writes no memory: `ip` and `rb` as given, every cell and the status as
before. -/
structure Moved (e : Engine) (i : Instr) (ip : Nat) (rb : Int) (e' : Engine) : Prop where
  cell : ∀ a, e'.mem.read a = e.mem.read a
  len : e'.len = grownLen e.len (checks e i)
  ip : e'.ip = ip
  rb : e'.rb = rb
  status : e'.status = e.status

/-- The Engine after a fault of the instruction at `e.ip`: only the status is new, and `len` may have grown
(60_exceptions R95). -/
structure FaultedAs (e : Engine) (f : EngineFault) (e' : Engine) : Prop where
  cell : ∀ a, e'.mem.read a = e.mem.read a
  len : e.len ≤ e'.len
  ip : e'.ip = e.ip
  rb : e'.rb = e.rb
  status : e'.status = .faulted ⟨f, e.ip⟩

/-- The fault `f` is taken: the run ends with it, and nothing but the Engine's status (and growth) has changed. -/
def TakesFault (s : State) (r : Run) (e : Engine) (f : EngineFault) (s' : State) : Prop :=
  ∃ e', FaultedAs e f e' ∧ Ends s r e' s.channels (.fault ⟨f, e.ip⟩) s'

/-- The statuses an instruction can leave a running Engine in at the end of a run, with what the host is given
(40_engine R65, R68). -/
inductive RunResult (c : Config) (ip : Nat) : Status → Result → Prop where
  | halted : RunResult c ip .halted (.signal 0)
  | input : RunResult c ip .suspendedOnInput (.signal c.sigIn)
  | output : RunResult c ip .suspendedOnOutput (.signal c.sigOut)
  | fault (f : EngineFault) : RunResult c ip (.faulted ⟨f, ip⟩) (.fault ⟨f, ip⟩)

/-- The host's command `cmd` has been taken and answered with `result`, and nothing else has changed. -/
structure Answered (s : State) (rest : List Command) (result : Result) (s' : State) : Prop where
  cfg : s'.cfg = s.cfg
  engines : s'.engines = s.engines
  channels : s'.channels = s.channels
  running : s'.running = s.running
  commands : s'.commands = rest
  results : s'.results = s.results ++ [result]

/-! ## The invariant -/

/-- An Engine as the rules leave it: memory canonical, every cell and `rb` representable (00_scope R5), no value at or
beyond `len` (10_state R22), `len` and `ip` within MEM_LIMIT, and a fault record that names `ip` (60_exceptions R95). -/
structure Engine.Ok (c : Config) (e : Engine) : Prop where
  canonical : e.mem.wf
  cells : ∀ p ∈ e.mem, Fits c.cellBits p.2
  grown : ∀ p ∈ e.mem, p.1 < e.len
  limit : lengthOk c e.len = true
  ipLimit : lengthOk c e.ip = true
  rbFits : Fits c.cellBits e.rb
  faultIp : ∀ f, e.status = .faulted f → f.ip = e.ip

/-- A channel as the rules leave it: representable values (R5), no more than CHAN_DEPTH of them (10_state R23). -/
structure Channel.Ok (c : Config) (ch : Channel) : Prop where
  values : ∀ v ∈ ch.contents, Fits c.cellBits v
  depth : ∀ d, c.chanDepth = some d → ch.contents.length ≤ d

/-- A run in progress: a live Engine whose status is Running, and two channels that exist (40_engine R63, R64). -/
structure Run.Ok (s : State) (r : Run) : Prop where
  live : ∃ e, s.engine? r.engine = some e ∧ e.status = .running
  inp : r.inp < s.channels.length
  out : r.out < s.channels.length

/-- The invariant of the machine. Its last clause is 40_engine R68: outside a run, only an Engine that has never run is
Running, so its `ip` and `rb` are still 0. -/
structure State.Inv (s : State) : Prop where
  cfg : s.cfg.Ok
  engines : ∀ h e, s.engine? h = some e → e.Ok s.cfg
  channels : ∀ ch ∈ s.channels, ch.Ok s.cfg
  run : ∀ r, s.running = some r → r.Ok s
  fresh : ∀ h e, s.engine? h = some e → e.status = .running →
    (∀ r, s.running = some r → r.engine ≠ h) → e.ip = 0 ∧ e.rb = 0

/-! ## What no observation can see -/

/-- The Engine with its hidden length forgotten (10_state R22). -/
def Engine.forgetLen (e : Engine) : Engine := { e with len := 0 }

/-- The state with every Engine's hidden length forgotten. -/
def State.forgetLen (s : State) : State := { s with engines := s.engines.map (Option.map Engine.forgetLen) }

/-- The state an outcome leads to. -/
def nextState? : Out → Option State
  | .next s => some s
  | .fault _ => none
  | .refused _ => none

end Sys2Proof.Machine
end

