-- ==== Sys2Proof/Certificates/Slice0/Obligations.lean ====
section
/-! DEFINITION. The statements about the machine, each a `def Obligations.<Name> : Prop`. The terms they use
(`operandValue`, `destAddr`, `checks`, `Ready`, `Wrote`, `Moved`, `Continues`, `Ends`, `TakesFault`, `State.Inv`) are
defined in Sys2Proof/Safety.lean from the spec's words. `s.active = some (r, e)` says that a run `r` of the live Engine
`e` is in progress. `s.commands` is what the host asks, one command a step while no run is in progress (log 6), and
`s.results` what it has been told (log 17). Where a clause rests on a decision of the spec (92_eei_decisions D<n>) or on a log entry of this
model, the docstring names it. -/

open Sys2Proof Sys2Proof.Machine

/-! ## Decoding and encoding -/

/-- Words written out from 30_encoding R42, R43, the examples of R59 and R56, and 95_test_vectors W2, W7, M1, J1, J9, L1,
E3, R1, D-1, D-3, D-4, D-6 to D-8, D-10, H2, decode as the spec says. The opcode numbers are the spec's from general
knowledge (D5, log 11); rejecting extra digits and negative words is D7, D8 (log 12). -/
def Obligations.SpecWordsDecodeAsWritten : Prop :=
  decode [1201, 3, 7, 9] = .ok (.add (.rel 3) (.imm 7) (.pos 9)) ∧
  decode [21001, 5, 7, 3] = .ok (.add (.pos 5) (.imm 7) (.rel 3)) ∧
  decode [1102, -4, 5, 0] = .ok (.mul (.imm (-4)) (.imm 5) (.pos 0)) ∧
  decode [203, 2] = .ok (.inp (.rel 2)) ∧
  decode [104, 42] = .ok (.out (.imm 42)) ∧
  decode [1105, 1, 9] = .ok (.jt (.imm 1) (.imm 9)) ∧
  decode [1006, 100, 5] = .ok (.jf (.pos 100) (.imm 5)) ∧
  decode [1107, 3, 5, 0] = .ok (.lt (.imm 3) (.imm 5) (.pos 0)) ∧
  decode [8, 0, 0, 0] = .ok (.eq (.pos 0) (.pos 0) (.pos 0)) ∧
  decode [109, 5] = .ok (.arb (.imm 5)) ∧
  decode [99] = .ok .hlt ∧
  decode [0] = .error .badOpcode ∧ decode [98] = .error .badOpcode ∧
  decode [301, 0, 0, 0] = .error .badMode ∧ decode [30001, -1, 0, 0] = .error .badMode ∧
  decode [-99] = .error .negativeWord ∧
  decode [10004, 0] = .error .extraModeDigits ∧ decode [199] = .error .extraModeDigits ∧
  decode [399] = .error .extraModeDigits

/-- Decoding the encoding of any instruction, whatever cells follow it, gives the instruction back: every mode and every
literal word of every operand (30_encoding R59 "This is the inverse of rule R42 for legal words"). -/
def Obligations.DecodeOfEncodeIsIdentity : Prop :=
  ∀ (i : Instr) (rest : List Int), decode (encode i ++ rest) = .ok i

/-- An instruction has one encoding: cells that decode to `i` begin with exactly the cells of `encode i` (30_encoding
R42, R56, R59). -/
def Obligations.DecodedCellsAreTheEncoding : Prop :=
  ∀ (cells : List Int) (i : Instr), decode cells = .ok i →
    encode i = (List.range i.length).map (fun k => cells.getD k 0)

/-- The verdict on every word, and the order of the checks (30_encoding R51, R54 to R57): which words raise which
subkind, and that every other word is an instruction. NegativeWord and ExtraModeDigits are decisions D8, D7 of the spec,
and the order of the checks is D17 (log 12). -/
def Obligations.EveryWordIsLegalOrHasOneSubkind : Prop :=
  ∀ (w : Int) (lit : Nat → Int),
    (decodeWith w lit = .error .negativeWord ↔ w < 0) ∧
    (decodeWith w lit = .error .badOpcode ↔ 0 ≤ w ∧ operandCount (w.toNat % 100) = none) ∧
    (decodeWith w lit = .error .badMode ↔
      0 ≤ w ∧ ∃ n, operandCount (w.toNat % 100) = some n ∧ ¬ ModesOk w.toNat n) ∧
    (decodeWith w lit = .error .extraModeDigits ↔
      0 ≤ w ∧ ∃ n, operandCount (w.toNat % 100) = some n ∧ ModesOk w.toNat n ∧ w.toNat / 100 / 10 ^ n ≠ 0) ∧
    ((∃ i, decodeWith w lit = .ok i) ↔
      0 ≤ w ∧ ∃ n, operandCount (w.toNat % 100) = some n ∧ ModesOk w.toNat n ∧ w.toNat / 100 / 10 ^ n = 0)

/-- The cells of a well-formed instruction are representable, so a program text can hold them (00_scope R5; 30_encoding
R45, R59). -/
def Obligations.EncodedCellsAreRepresentable : Prop :=
  ∀ (w : Nat) (i : Instr), 64 ≤ w → i.wf w = true → ∀ v ∈ encode i, Fits w v

/-! ## The step -/

/-- When the cells at `ip` decode to `i`, the step is `exec i`, in the state whose memory has grown to hold the word just
fetched (30_encoding R50, R51; 40_engine R61). -/
def Obligations.StepExecutesTheDecodedInstruction : Prop :=
  ∀ (s : State) (r : Run) (e : Engine) (i : Instr), s.active = some (r, e) → addressable s.cfg e.ip = true →
    decodeWith (e.mem.read e.ip) (fun k => e.mem.read (e.ip + k)) = .ok i →
    step s = exec i (s.setEngine r.engine { e with len := max e.len (e.ip + 1) })

/-- A word that is no instruction takes DecodeFault with its subkind and the word as fetched (30_encoding R41, R54, R55,
R56; 60_exceptions R93, R95; D7, D8, D10, D18, log 12). -/
def Obligations.UndecodableWordTakesDecodeFault : Prop :=
  ∀ (s : State) (r : Run) (e : Engine) (sub : DecodeSubkind), s.active = some (r, e) →
    addressable s.cfg e.ip = true →
    decodeWith (e.mem.read e.ip) (fun k => e.mem.read (e.ip + k)) = .error sub →
    ∃ s', step s = .next s' ∧ TakesFault s r e (.decode sub (e.mem.read e.ip)) s'

/-- A fetch at `ip >= MEM_LIMIT` takes CapacityFault (30_encoding R50; D3, log 12). -/
def Obligations.FetchBeyondTheLimitTakesCapacityFault : Prop :=
  ∀ (s : State) (r : Run) (e : Engine), s.active = some (r, e) → addressable s.cfg e.ip = false →
    ∃ s', step s = .next s' ∧ TakesFault s r e (.capacity e.ip) s'

/-- The first check of `Decode` that fails, in operand order, decides the fault, for every instruction, whatever its
`Execute` would have done (30_encoding R51; 60_exceptions R94; D17, log 12). -/
def Obligations.FirstFailingOperandCheckTakesTheFault : Prop :=
  ∀ (s : State) (r : Run) (e : Engine) (i : Instr) (f : EngineFault), s.active = some (r, e) →
    firstFault s.cfg (checks e i) = some f →
    ∃ s', exec i s = .next s' ∧ TakesFault s r e f s'

/-! ## ADD, MUL, LT, EQ -/

/-- ADD writes the exact sum when it is representable, advances `ip` by 4 and changes nothing else (41_alu R76, R78; that
operand 3 is the destination is the spec's from general knowledge, D6, log 11). -/
def Obligations.AddWritesTheSum : Prop :=
  ∀ (s : State) (r : Run) (e : Engine) (a b d : Operand), s.active = some (r, e) → e.mem.wf →
    Ready s.cfg e (.add a b d) → Fits s.cfg.cellBits (operandValue e a + operandValue e b) →
    ∃ s' e', exec (.add a b d) s = .next s' ∧
      Wrote e (.add a b d) d (operandValue e a + operandValue e b) 4 e' ∧ Continues s r e' s.channels s'

/-- MUL writes the exact product when it is representable, advances `ip` by 4 and changes nothing else (R76, R79; D6,
log 11). -/
def Obligations.MulWritesTheProduct : Prop :=
  ∀ (s : State) (r : Run) (e : Engine) (a b d : Operand), s.active = some (r, e) → e.mem.wf →
    Ready s.cfg e (.mul a b d) → Fits s.cfg.cellBits (operandValue e a * operandValue e b) →
    ∃ s' e', exec (.mul a b d) s = .next s' ∧
      Wrote e (.mul a b d) d (operandValue e a * operandValue e b) 4 e' ∧ Continues s r e' s.channels s'

/-- LT writes 1 if the first value is less than the second (signed), else 0, advances `ip` by 4 and changes nothing else
(R80; the result is the spec's from general knowledge, D6, log 11). -/
def Obligations.LtWritesTheSignedComparison : Prop :=
  ∀ (s : State) (r : Run) (e : Engine) (a b d : Operand), s.active = some (r, e) → e.mem.wf →
    Ready s.cfg e (.lt a b d) →
    ∃ s' e', exec (.lt a b d) s = .next s' ∧ Continues s r e' s.channels s' ∧
      (operandValue e a < operandValue e b → Wrote e (.lt a b d) d 1 4 e') ∧
      (operandValue e b ≤ operandValue e a → Wrote e (.lt a b d) d 0 4 e')

/-- EQ writes 1 if the two values are equal, else 0, advances `ip` by 4 and changes nothing else (R81; D6, log 11). -/
def Obligations.EqWritesTheEquality : Prop :=
  ∀ (s : State) (r : Run) (e : Engine) (a b d : Operand), s.active = some (r, e) → e.mem.wf →
    Ready s.cfg e (.eq a b d) →
    ∃ s' e', exec (.eq a b d) s = .next s' ∧ Continues s r e' s.channels s' ∧
      (operandValue e a = operandValue e b → Wrote e (.eq a b d) d 1 4 e') ∧
      (operandValue e a ≠ operandValue e b → Wrote e (.eq a b d) d 0 4 e')

/-- A result of ADD, MUL or ARB outside `[MIN, MAX]` takes OverflowFault with the opcode 1, 2 or 9, and nothing is
written (41_alu R77, 43_relbase R85; the spec's decision D2, log 12). -/
def Obligations.UnrepresentableResultTakesOverflowFault : Prop :=
  ∀ (s : State) (r : Run) (e : Engine) (a b d : Operand), s.active = some (r, e) →
    (Ready s.cfg e (.add a b d) → ¬ Fits s.cfg.cellBits (operandValue e a + operandValue e b) →
      ∃ s', exec (.add a b d) s = .next s' ∧ TakesFault s r e (.overflow 1) s') ∧
    (Ready s.cfg e (.mul a b d) → ¬ Fits s.cfg.cellBits (operandValue e a * operandValue e b) →
      ∃ s', exec (.mul a b d) s = .next s' ∧ TakesFault s r e (.overflow 2) s') ∧
    (Ready s.cfg e (.arb a) → ¬ Fits s.cfg.cellBits (e.rb + operandValue e a) →
      ∃ s', exec (.arb a) s = .next s' ∧ TakesFault s r e (.overflow 9) s')

/-! ## JT, JF -/

/-- JT: a non-zero condition sets `ip` to the target, which is checked; a zero condition advances `ip` by 3 and does not
look at the target. Nothing else changes (42_jumps R82, R83; the check is the spec's decision D12, log 12). -/
def Obligations.JtJumpsExactlyOnNonzero : Prop :=
  ∀ (s : State) (r : Run) (e : Engine) (c t : Operand), s.active = some (r, e) → Ready s.cfg e (.jt c t) →
    (operandValue e c ≠ 0 → AddrOk s.cfg (operandValue e t) →
      ∃ s' e', exec (.jt c t) s = .next s' ∧ Moved e (.jt c t) (operandValue e t).toNat e.rb e' ∧
        Continues s r e' s.channels s') ∧
    (operandValue e c = 0 →
      ∃ s' e', exec (.jt c t) s = .next s' ∧ Moved e (.jt c t) (e.ip + 3) e.rb e' ∧ Continues s r e' s.channels s')

/-- JF: a zero condition sets `ip` to the target, which is checked; any other condition advances `ip` by 3 and does not
look at the target. Nothing else changes (R82, R84; D12, log 12). -/
def Obligations.JfJumpsExactlyOnZero : Prop :=
  ∀ (s : State) (r : Run) (e : Engine) (c t : Operand), s.active = some (r, e) → Ready s.cfg e (.jf c t) →
    (operandValue e c = 0 → AddrOk s.cfg (operandValue e t) →
      ∃ s' e', exec (.jf c t) s = .next s' ∧ Moved e (.jf c t) (operandValue e t).toNat e.rb e' ∧
        Continues s r e' s.channels s') ∧
    (operandValue e c ≠ 0 →
      ∃ s' e', exec (.jf c t) s = .next s' ∧ Moved e (.jf c t) (e.ip + 3) e.rb e' ∧ Continues s r e' s.channels s')

/-- A taken jump to a negative target takes AddressFault, and one to a target at or above MEM_LIMIT takes CapacityFault,
with the target as info and `ip` still at the jump (42_jumps R82; the spec's decisions D12, D3, log 12). -/
def Obligations.TakenJumpToABadTargetFaults : Prop :=
  ∀ (s : State) (r : Run) (e : Engine) (c t : Operand) (i : Instr), s.active = some (r, e) → Ready s.cfg e i →
    (i = .jt c t ∧ operandValue e c ≠ 0 ∨ i = .jf c t ∧ operandValue e c = 0) →
    (operandValue e t < 0 →
      ∃ s', exec i s = .next s' ∧ TakesFault s r e (.address (operandValue e t)) s') ∧
    (0 ≤ operandValue e t → addressable s.cfg (operandValue e t).toNat = false →
      ∃ s', exec i s = .next s' ∧ TakesFault s r e (.capacity (operandValue e t)) s')

/-! ## ARB -/

/-- ARB adds its operand, read through the old `rb`, to `rb`, advances `ip` by 2 and changes nothing else (43_relbase
R85). -/
def Obligations.ArbAddsToTheRelativeBase : Prop :=
  ∀ (s : State) (r : Run) (e : Engine) (a : Operand), s.active = some (r, e) → Ready s.cfg e (.arb a) →
    Fits s.cfg.cellBits (e.rb + operandValue e a) →
    ∃ s' e', exec (.arb a) s = .next s' ∧ Moved e (.arb a) (e.ip + 2) (e.rb + operandValue e a) e' ∧
      Continues s r e' s.channels s'

/-! ## IN, OUT, HLT -/

/-- IN on a channel with a value pops it from the end CHANNEL_ORDER names, stores it at the destination and advances
`ip` by 2; on a non-blocking channel the run goes on (44_io R88, R89; that CHANNEL_ORDER may be FIFO
is the spec's decision D14, log 12). -/
def Obligations.InputStoresThePoppedValueAndGoesOn : Prop :=
  ∀ (s : State) (r : Run) (e : Engine) (d : Operand) (ch ch' : Channel) (v : Int), s.active = some (r, e) →
    e.mem.wf → Ready s.cfg e (.inp d) → s.channels[r.inp]? = some ch → ch.pop s.cfg = some (v, ch') →
    ch.blocking = false →
    ∃ s' e', exec (.inp d) s = .next s' ∧ Wrote e (.inp d) d v 2 e' ∧
      Continues s r e' (s.channels.set r.inp ch') s'

/-- IN on a blocking channel with a value does the same and then suspends the run: SuspendedOnInput, and the host gets
SIG_IN (44_io R89; 40_engine R65, R66). -/
def Obligations.InputOnABlockingChannelSuspends : Prop :=
  ∀ (s : State) (r : Run) (e : Engine) (d : Operand) (ch ch' : Channel) (v : Int), s.active = some (r, e) →
    e.mem.wf → Ready s.cfg e (.inp d) → s.channels[r.inp]? = some ch → ch.pop s.cfg = some (v, ch') →
    ch.blocking = true →
    ∃ s' e', exec (.inp d) s = .next s' ∧ Wrote e (.inp d) d v 2 e' ∧
      Ends s r { e' with status := .suspendedOnInput } (s.channels.set r.inp ch') (.signal s.cfg.sigIn) s'

/-- IN on an empty channel: blocking, the run ends with SIG_IN and memory, `rb`, `ip` and the channels are unchanged;
non-blocking, ChannelUnderflow is taken (44_io R89; 90_conflicts C1, D26, log 12). -/
def Obligations.InputOnAnEmptyChannelWaitsOrUnderflows : Prop :=
  ∀ (s : State) (r : Run) (e : Engine) (d : Operand) (ch : Channel), s.active = some (r, e) →
    Ready s.cfg e (.inp d) → s.channels[r.inp]? = some ch → ch.contents = [] →
    (ch.blocking = true →
      ∃ s', exec (.inp d) s = .next s' ∧
        Ends s r { e with len := max e.len (e.ip + 2), status := .suspendedOnInput } s.channels
          (.signal s.cfg.sigIn) s') ∧
    (ch.blocking = false → ∃ s', exec (.inp d) s = .next s' ∧ TakesFault s r e .channelUnderflow s')

/-- OUT on a channel that is not full appends its operand as the newest value and advances `ip` by 2; on a non-blocking
channel the run goes on (44_io R87, R90). -/
def Obligations.OutputAppendsAndGoesOn : Prop :=
  ∀ (s : State) (r : Run) (e : Engine) (a : Operand) (ch : Channel), s.active = some (r, e) →
    Ready s.cfg e (.out a) → s.channels[r.out]? = some ch → ch.isFull s.cfg = false → ch.blocking = false →
    ∃ s' e', exec (.out a) s = .next s' ∧ Moved e (.out a) (e.ip + 2) e.rb e' ∧
      Continues s r e' (s.channels.set r.out { ch with contents := ch.contents ++ [operandValue e a] }) s'

/-- OUT on a blocking channel that is not full does the same and then suspends the run: SuspendedOnOutput, and the host
gets SIG_OUT (44_io R90; 40_engine R65, R66). -/
def Obligations.OutputOnABlockingChannelSuspends : Prop :=
  ∀ (s : State) (r : Run) (e : Engine) (a : Operand) (ch : Channel), s.active = some (r, e) →
    Ready s.cfg e (.out a) → s.channels[r.out]? = some ch → ch.isFull s.cfg = false → ch.blocking = true →
    ∃ s' e', exec (.out a) s = .next s' ∧ Moved e (.out a) (e.ip + 2) e.rb e' ∧
      Ends s r { e' with status := .suspendedOnOutput }
        (s.channels.set r.out { ch with contents := ch.contents ++ [operandValue e a] }) (.signal s.cfg.sigOut) s'

/-- OUT on a channel that holds CHAN_DEPTH values takes ChannelOverflow (44_io R86, R87, R90; D13, log 12). -/
def Obligations.OutputOnAFullChannelOverflows : Prop :=
  ∀ (s : State) (r : Run) (e : Engine) (a : Operand) (ch : Channel) (n : Nat), s.active = some (r, e) →
    Ready s.cfg e (.out a) → s.channels[r.out]? = some ch → s.cfg.chanDepth = some n → n = ch.contents.length →
    ∃ s', exec (.out a) s = .next s' ∧ TakesFault s r e .channelOverflow s'

/-- HLT ends the run with SIG_HALT = 0 and status Halted; memory, `rb`, the channels and `ip` keep their values (45_halt
R91; that `ip` stays is the spec's decision D11, log 12). -/
def Obligations.HaltEndsTheRunWithSignalZero : Prop :=
  ∀ (s : State) (r : Run) (e : Engine), s.active = some (r, e) →
    ∃ s', exec .hlt s = .next s' ∧ Ends s r { e with status := .halted } s.channels (.signal 0) s'

/-! ## Pseudo-instructions and self-modifying code -/

/-- The pseudo-instructions do what their names say: JMP goes to its target, NOP only advances by 3, MOV copies, CLR
writes 0, NEG writes the negated value (30_encoding R60; the notation is the spec's decision D21, log 15). -/
def Obligations.PseudoInstructionsDoWhatTheyName : Prop :=
  ∀ (s : State) (r : Run) (e : Engine) (x d : Operand), s.active = some (r, e) → e.mem.wf → 64 ≤ s.cfg.cellBits →
    (Ready s.cfg e (.jmp x) → AddrOk s.cfg (operandValue e x) →
      ∃ s' e', exec (.jmp x) s = .next s' ∧ Moved e (.jmp x) (operandValue e x).toNat e.rb e' ∧
        Continues s r e' s.channels s') ∧
    (Ready s.cfg e .nop →
      ∃ s' e', exec .nop s = .next s' ∧ Moved e .nop (e.ip + 3) e.rb e' ∧ Continues s r e' s.channels s') ∧
    (Ready s.cfg e (.mov x d) → Fits s.cfg.cellBits (operandValue e x) →
      ∃ s' e', exec (.mov x d) s = .next s' ∧ Wrote e (.mov x d) d (operandValue e x) 4 e' ∧
        Continues s r e' s.channels s') ∧
    (Ready s.cfg e (.clr d) →
      ∃ s' e', exec (.clr d) s = .next s' ∧ Wrote e (.clr d) d 0 4 e' ∧ Continues s r e' s.channels s') ∧
    (Ready s.cfg e (.neg x d) → Fits s.cfg.cellBits (-operandValue e x) →
      ∃ s' e', exec (.neg x d) s = .next s' ∧ Wrote e (.neg x d) d (-operandValue e x) 4 e' ∧
        Continues s r e' s.channels s')

/-- A write is seen by the very next fetch: when ADD's destination is the cell after it, the next step executes the
instruction that the sum decodes to, with no fence, in the state the ADD left, whose memory has grown to hold the word
just fetched (20_memory R39 (a); 70_reset_and_hazards R110 (b)). -/
def Obligations.WrittenWordIsTheNextInstruction : Prop :=
  ∀ (s : State) (r : Run) (e : Engine) (a b d : Operand) (i : Instr), s.active = some (r, e) → e.mem.wf →
    Ready s.cfg e (.add a b d) → Fits s.cfg.cellBits (operandValue e a + operandValue e b) →
    destAddr e d = ((e.ip + 4 : Nat) : Int) →
    decodeWith (operandValue e a + operandValue e b) (fun k => e.mem.read (e.ip + 4 + k)) = .ok i →
    ∃ s' e', exec (.add a b d) s = .next s' ∧
      Wrote e (.add a b d) d (operandValue e a + operandValue e b) 4 e' ∧ Continues s r e' s.channels s' ∧
      step s' = exec i (s'.setEngine r.engine { e' with len := max e'.len (e.ip + 5) })

/-! ## Rules of the whole machine -/

/-- Faults are precise: when a step leaves the running Engine Faulted, the record names the instruction's address,
memory, `rb`, `ip`, the channels and every other Engine are as before the step, the run is over and the host has the
record (60_exceptions R95; D10, D24, log 12). -/
def Obligations.FaultsArePrecise : Prop :=
  ∀ (s s' : State) (r : Run) (e e' : Engine) (f : FaultRecord), s.active = some (r, e) → e.status = .running →
    step s = .next s' → s'.engine? r.engine = some e' → e'.status = .faulted f →
    f.ip = e.ip ∧ TakesFault s r e f.cause s'

/-- Only ARB writes the relative base (43_relbase; 10_state R17), of every instruction in every state. -/
def Obligations.OnlyArbWritesTheRelativeBase : Prop :=
  ∀ (s s' : State) (r : Run) (e e' : Engine) (i : Instr), s.active = some (r, e) → exec i s = .next s' →
    s'.engine? r.engine = some e' → (∀ a, i ≠ .arb a) → e'.rb = e.rb

/-- Every instruction leaves every cell as it was, but for the cell its destination operand addresses; an instruction
without a destination leaves all of memory as it was (20_memory R30). -/
def Obligations.OnlyTheDestinationCellChanges : Prop :=
  ∀ (s s' : State) (r : Run) (e e' : Engine) (i : Instr), s.active = some (r, e) → e.mem.wf → exec i s = .next s' →
    s'.engine? r.engine = some e' →
    ∀ n, (∀ d, destination i = some d → n ≠ (destAddr e d).toNat) → e'.mem.read n = e.mem.read n

/-- A step of one Engine's run leaves every other Engine, every channel not bound to the run, and the host's waiting
commands as they were (10_state R25; 20_memory R36 (b); 40_engine R69). -/
def Obligations.ARunTouchesOnlyItsEngineAndChannels : Prop :=
  ∀ (s s' : State) (r : Run) (e : Engine), s.active = some (r, e) → step s = .next s' →
    (∀ h, h ≠ r.engine → s'.engine? h = s.engine? h) ∧
    (∀ c, c ≠ r.inp → c ≠ r.out → s'.channels[c]? = s.channels[c]?) ∧
    s'.commands = s.commands

/-- A run is suspended only by an Input or Output on a blocking channel, and then the run is over: after a completed
Input (the value popped, stored, `ip` advanced), with no effect at all of an Input that found its channel empty, or after
a completed Output. No other instruction, and no Input or Output on a non-blocking channel, suspends (40_engine R66). -/
def Obligations.OnlyBlockingIoSuspends : Prop :=
  ∀ (s s' : State) (r : Run) (e e' : Engine) (i : Instr), s.active = some (r, e) → e.status = .running → e.mem.wf →
    exec i s = .next s' → s'.engine? r.engine = some e' →
    (e'.status = .suspendedOnInput →
      s'.running = none ∧ e'.rb = e.rb ∧ ∃ d ch, i = .inp d ∧ s.channels[r.inp]? = some ch ∧ ch.blocking = true ∧
        ((∃ v ch', ch.pop s.cfg = some (v, ch') ∧ s'.channels = s.channels.set r.inp ch' ∧ e'.ip = e.ip + 2 ∧
            ∀ a, e'.mem.read a = if a = (destAddr e d).toNat then v else e.mem.read a) ∨
          (ch.contents = [] ∧ s'.channels = s.channels ∧ e'.ip = e.ip ∧ e'.mem = e.mem))) ∧
    (e'.status = .suspendedOnOutput →
      s'.running = none ∧ e'.rb = e.rb ∧ ∃ a ch, i = .out a ∧ s.channels[r.out]? = some ch ∧ ch.blocking = true ∧
        s'.channels = s.channels.set r.out { ch with contents := ch.contents ++ [operandValue e a] } ∧
        e'.ip = e.ip + 2 ∧ e'.mem = e.mem)

/-- Only IN and OUT touch a channel: IN at most pops from the run's input channel, OUT at most pushes onto the run's
output channel, and every other instruction leaves all channels as they were (44_io; 41_alu; 60_exceptions section 5). -/
def Obligations.OnlyInputAndOutputTouchChannels : Prop :=
  ∀ (s s' : State) (r : Run) (e : Engine) (i : Instr), s.active = some (r, e) → exec i s = .next s' →
    s'.channels = s.channels ∨
    (∃ d ch ch' v, i = .inp d ∧ s.channels[r.inp]? = some ch ∧ ch.pop s.cfg = some (v, ch') ∧
      s'.channels = s.channels.set r.inp ch') ∨
    (∃ a ch ch', i = .out a ∧ s.channels[r.out]? = some ch ∧ ch.push s.cfg (operandValue e a) = some ch' ∧
      s'.channels = s.channels.set r.out ch')

/-- Length and advance: an instruction takes `1 + count` cells, and when it has completed (no fault, and not an Input
waiting on an empty channel) `ip` is past them, but for a taken jump, which leaves `ip` at its target, and Halt, which
leaves `ip` unchanged (30_encoding R44). -/
def Obligations.InstructionsAdvanceByTheirLength : Prop :=
  ∀ (s s' : State) (r : Run) (e e' : Engine) (i : Instr), s.active = some (r, e) → exec i s = .next s' →
    s'.engine? r.engine = some e' → (∀ f, e'.status ≠ .faulted f) →
    (∀ d ch, i = .inp d → s.channels[r.inp]? = some ch → ch.contents ≠ []) →
    (encode i).length = i.length ∧ (∃ count, operandCount i.opcode = some count ∧ i.length = 1 + count) ∧
    (match i with
      | .hlt => e'.ip = e.ip
      | .jt c t => (e'.ip : Int) = if operandValue e c ≠ 0 then operandValue e t else ((e.ip + i.length : Nat) : Int)
      | .jf c t => (e'.ip : Int) = if operandValue e c = 0 then operandValue e t else ((e.ip + i.length : Nat) : Int)
      | .add .. | .mul .. | .lt .. | .eq .. | .inp .. | .out .. | .arb .. => e'.ip = e.ip + i.length)

/-- Every step of a run either leaves the run in progress, the Engine Running and the host without a result, or ends it
with one of the four results of the table and the status that goes with it (40_engine R65, R68, R70; the Faulted row is
the spec's decision D10, the two suspension codes are parameters by D9, log 12). -/
def Obligations.AStepOfARunFollowsTheTransitionTable : Prop :=
  ∀ (s s' : State) (r : Run) (e : Engine), s.active = some (r, e) → e.status = .running → step s = .next s' →
    ∃ e', s'.engine? r.engine = some e' ∧
      ((s'.running = some r ∧ e'.status = .running ∧ s'.results = s.results) ∨
       ∃ res, s'.running = none ∧ RunResult s.cfg e.ip e'.status res ∧ s'.results = s.results ++ [res])

/-- A waiting Engine does nothing until the host runs it: it stays as it is, to the last cell, until a `RUN` of it makes it
Running, with all its state as the suspension left it, or it is discarded. A Halted or Faulted Engine never runs again:
it stays as it is until it is discarded, whatever is run (60_exceptions R104). -/
def Obligations.SuspendedEnginesWakeOnlyByRun : Prop :=
  ∀ (s s' : State) (h : Nat) (e : Engine), s.Inv → step s = .next s' → s.engine? h = some e →
    (e.status = .suspendedOnInput ∨ e.status = .suspendedOnOutput →
      s'.engine? h = some e ∨ (s'.engine? h = none ∧ s.commands.head? = some (.discard h)) ∨
      (∃ inp out, s.commands.head? = some (.run h inp out) ∧ s'.engine? h = some { e with status := .running } ∧
        s'.running = some ⟨h, inp, out⟩)) ∧
    (e.status = .halted ∨ (∃ f, e.status = .faulted f) →
      (s'.engine? h = some e ∨ (s'.engine? h = none ∧ s.commands.head? = some (.discard h))) ∧
      ∀ r, s'.running = some r → r.engine ≠ h)

/-- No step changes a parameter of 00_scope R4 or a channel's blocking flag (00_scope R10; 10_state R24). That every
channel still exists after a step is the model's (log 16, DEDUCED: no command ends the session, so channels stay). -/
def Obligations.ParametersAndBlockingFlagsAreFixed : Prop :=
  ∀ (s s' : State), step s = .next s' →
    s'.cfg = s.cfg ∧
    ∀ (c : Nat) (ch : Channel), s.channels[c]? = some ch →
      ∃ ch', s'.channels[c]? = some ch' ∧ ch'.blocking = ch.blocking

/-- The invariant holds after reset. That reset holds one Engine with no program is the model's choice (log 3), and the
canonical form of its memory the model's form (log 1). -/
def Obligations.InvariantHoldsAtReset : Prop := State.reset.Inv

/-- Every step keeps the invariant: memory canonical, every cell, relative base and channel value representable, no value
at or beyond `len`, `len` and `ip` within MEM_LIMIT, channels within CHAN_DEPTH, a run bound to a live Running Engine
and to channels that exist, fault records naming `ip`, and Running outside a run only before an Engine's first run
(00_scope R5; 10_state R16, R17, R21 to R23; 40_engine R64, R68; 60_exceptions R95). The canonical form is the model's
(log 1), and that a host PUSH of an unrepresentable value is refused is too (log 8). -/
def Obligations.EveryStepKeepsTheInvariant : Prop :=
  ∀ (s s' : State), s.Inv → step s = .next s' → s'.Inv

/-- From a state with the invariant a step always answers a next state: no instruction, word, operand or host command
stops the machine (60_exceptions R95, R97: a fault is a result for the host, not an end of the block). That a state with nothing to do steps
to itself, and that the commands the spec gives no answer are refused, is the model's (log 6, log 7, log 8), as is the stop
that the invariant rules out (log 9). -/
def Obligations.TheMachineNeverStops : Prop :=
  ∀ s : State, s.Inv → ∃ s', step s = .next s'

/-- A run need not end: a JT to its own address with a true condition executes for ever, and the block puts no bound on
it (00_scope R12; 40_engine R65; 42_jumps R83). -/
def Obligations.ARunNeedNotEnd : Prop :=
  ∀ (s : State) (r : Run) (e : Engine), s.active = some (r, e) → e.mem.read e.ip = 1105 →
    e.mem.read (e.ip + 1) = 1 → e.mem.read (e.ip + 2) = e.ip → addressable s.cfg (e.ip + 2) = true →
    ∀ n : Nat, ∃ (s' : State) (e' : Engine), Host.Core.run Sys2Proof.core n s = .next s' ∧
      s'.active = some (r, e') ∧ e'.mem = e.mem ∧ e'.ip = e.ip ∧ e'.rb = e.rb ∧ e'.status = e.status ∧
      s'.channels = s.channels ∧ s'.results = s.results

/-- The memory length cannot be observed: states that differ only in their Engines' lengths step to states that differ
only there, results included (10_state R22). -/
def Obligations.MemoryLengthIsUnobservable : Prop :=
  ∀ s t : State, s.forgetLen = t.forgetLen →
    (nextState? (step s)).map State.forgetLen = (nextState? (step t)).map State.forgetLen

/-! ## Memory -/

/-- Operands resolve by their modes, once their literal word is accessed: position reads `M[lit]`, immediate is `lit`
itself, relative reads `M[rb + lit]`; a destination is `lit`, plus `rb` in mode 2, checked and not read (30_encoding R46
to R49). -/
def Obligations.OperandsResolveByTheirModes : Prop :=
  ∀ (c : Config) (e e₁ : Engine) (i : Nat) (lit : Int), AddrOk c ((e.ip + i : Nat) : Int) →
    e₁ = { e with len := max e.len (e.ip + i + 1) } →
    readOperand c e i ⟨.position, lit⟩ = memRead c e₁ lit ∧
    readOperand c e i ⟨.immediate, lit⟩ = .ok lit e₁ ∧
    readOperand c e i ⟨.relative, lit⟩ = memRead c e₁ (e.rb + lit) ∧
    ∀ m : Mode, (∀ n, checkAddr c (if m = .relative then e.rb + lit else lit) = .ok n →
        destOperand c e i ⟨m, lit⟩ = .ok n e₁) ∧
      (∀ f, checkAddr c (if m = .relative then e.rb + lit else lit) = .error f →
        destOperand c e i ⟨m, lit⟩ = .raise f e₁)

/-- `MemWrite` at an address that passed its check writes that one cell: every other cell, `ip`, `rb` and the status keep
their values, and `len` grows as by any access (20_memory R30). That the memory keeps its canonical form is the model's:
the spec has no list, and the list form is the model's choice (log 1). -/
def Obligations.MemWriteWritesOneCell : Prop :=
  ∀ (c : Config) (e : Engine) (a : Int) (v : Int) (n : Nat), e.mem.wf → Fits c.cellBits v → checkAddr c a = .ok n →
    (n : Int) = a ∧ (e.store n v).mem.wf ∧ (∀ b, (e.store n v).mem.read b = if b = n then v else e.mem.read b) ∧
    (e.store n v).len = (if n ≥ e.len then n + 1 else e.len) ∧
    (e.store n v).ip = e.ip ∧ (e.store n v).rb = e.rb ∧ (e.store n v).status = e.status

/-- Memories in canonical form that read the same everywhere are the same list (the form is the model's, log 1). -/
def Obligations.EqualReadingsAreEqualMemories : Prop :=
  ∀ m m' : Memory, m.wf → m'.wf → (∀ a, m.read a = m'.read a) → m = m'

/-- Auto-growth: an access at `a >= len`, read or write, sets `len` to `a + 1`, and the cells from the old `len` up to
`a` hold 0 (but for the cell a write writes); an access at `a < len` leaves `len` as it is; a read has no other effect
(20_memory R28). -/
def Obligations.AccessesGrowMemoryWithZeros : Prop :=
  ∀ (c : Config) (e : Engine) (a : Nat) (v : Int), e.Ok c → addressable c a = true →
    ∃ e₁, memRead c e a = .ok (e.mem.read a) e₁ ∧
      e₁ = { e with len := e₁.len } ∧ (∀ k, e₁.mem.read k = e.mem.read k) ∧
      (e.len ≤ a → e₁.len = a + 1 ∧ (e.store a v).len = a + 1 ∧
        (∀ k, e.len ≤ k → k ≤ a → e₁.mem.read k = 0) ∧ (∀ k, e.len ≤ k → k < a → (e.store a v).mem.read k = 0)) ∧
      (a < e.len → e₁.len = e.len ∧ (e.store a v).len = e.len)

/-- `MemRead` raises AddressFault below 0 and CapacityFault at or above MEM_LIMIT, and otherwise gives the cell, having
changed nothing of the Engine but `len` (20_memory R27, R29; CapacityFault is D3, log 12). -/
def Obligations.MemReadChecksReadsAndGrows : Prop :=
  ∀ (c : Config) (e : Engine) (a : Int),
    (a < 0 → memRead c e a = .raise (.address a) e) ∧
    (0 ≤ a → addressable c a.toNat = false → memRead c e a = .raise (.capacity a) e) ∧
    (0 ≤ a → addressable c a.toNat = true →
      memRead c e a = .ok (e.mem.read a.toNat)
        { e with len := if a.toNat ≥ e.len then a.toNat + 1 else e.len })

/-! ## Channels and the host's commands -/

/-- `Pop` takes the newest value under LIFO and the oldest under FIFO, keeps the rest in order and the blocking flag, and
fails exactly on an empty channel (44_io R88). -/
def Obligations.PopTakesFromTheConfiguredEnd : Prop :=
  ∀ (c : Config) (ch : Channel) (v : Int) (vs : List Int),
    (c.order = .lifo → ch.contents = vs ++ [v] → ch.pop c = some (v, { ch with contents := vs })) ∧
    (c.order = .fifo → ch.contents = v :: vs → ch.pop c = some (v, { ch with contents := vs })) ∧
    (ch.pop c = none ↔ ch.contents = [])

/-- `NEW` of a text that parses (`NewFailsWithoutAnEngine` says when, and to what), within MEM_LIMIT, appends one Engine:
the words at 0 .. n-1 and 0 beyond, `len` = n, `ip` = 0, `rb` = 0, Running; it returns the handle and changes nothing
else (70_reset_and_hazards R106). The handle is the model's (log 7), and so is the clause that the new memory has the
canonical list form, which no rule of the spec mentions (log 1). -/
def Obligations.NewConstructsAnEngineAtReset : Prop :=
  ∀ (s : State) (text : List Char) (rest : List Command) (vs : List Int), s.running = none →
    s.commands = .new text :: rest → parseText s.cfg.cellBits text = .ok vs → lengthOk s.cfg vs.length = true →
    ∃ s' e, step s = .next s' ∧ s'.engines = s.engines ++ [some e] ∧
      (∀ a, e.mem.read a = vs.getD a 0) ∧ e.mem.wf ∧ e.len = vs.length ∧ e.ip = 0 ∧ e.rb = 0 ∧
      e.status = .running ∧ s'.results = s.results ++ [.engine s.engines.length] ∧
      s'.cfg = s.cfg ∧ s'.channels = s.channels ∧ s'.running = none ∧ s'.commands = rest

/-- A program text parses exactly when each of its tokens does, to the tokens' values in order; else parsing fails at the
FIRST token that does not parse. `NEW` of a text that does not parse gives MalformedProgramText with that token's index,
and one of more than MEM_LIMIT integers gives CapacityFault(n - 1); no Engine is created and nothing else changes
(70_reset_and_hazards R105, R106; 60_exceptions R97; D3, D15, log 12). `ProgramTextSplitsAtItsCommas` says what the tokens
are, `TokensAreSignedDecimals` which of them parse. -/
def Obligations.NewFailsWithoutAnEngine : Prop :=
  ∀ (s : State) (text : List Char) (rest : List Command), s.running = none → s.commands = .new text :: rest →
    (∀ vs, parseText s.cfg.cellBits text = .ok vs ↔
      (splitCommas text).map (parseToken s.cfg.cellBits) = vs.map some) ∧
    (∀ j, parseText s.cfg.cellBits text = .error j ↔
      (∃ t, (splitCommas text)[j]? = some t ∧ parseToken s.cfg.cellBits t = none) ∧
      ∀ k t, k < j → (splitCommas text)[k]? = some t → parseToken s.cfg.cellBits t ≠ none) ∧
    (∀ j, parseText s.cfg.cellBits text = .error j →
      ∃ s', step s = .next s' ∧ Answered s rest (.hostFault (.malformedProgramText j)) s') ∧
    (∀ vs, parseText s.cfg.cellBits text = .ok vs → lengthOk s.cfg vs.length = false →
      ∃ s', step s = .next s' ∧ Answered s rest (.hostFault (.capacity (vs.length - 1))) s')

/-- The tokens of a program text are what stands between its commas: splitting any comma-free tokens joined by commas
gives them back, empty ones included (70_reset_and_hazards R105; the grammar is D15, log 12). What becomes of the tokens
is in `NewFailsWithoutAnEngine`. -/
def Obligations.ProgramTextSplitsAtItsCommas : Prop :=
  ∀ toks : List (List Char), toks ≠ [] → (∀ t ∈ toks, ',' ∉ t) →
    splitCommas (List.intercalate [','] toks) = toks

/-- A token parses to `v` exactly when, between whitespace, it is an optional sign and at least one decimal digit whose
value is `v`, and `v` is representable (R105; D15, log 12). -/
def Obligations.TokensAreSignedDecimals : Prop :=
  ∀ (w : Nat) (t : List Char) (v : Int), parseToken w t = some v ↔
    Fits w v ∧ ∃ (pre post sign : List Char) (ds : List (Fin 10)),
      t = pre ++ sign ++ ds.map (fun d => Char.ofNat (48 + d.val)) ++ post ∧ ds ≠ [] ∧
      (∀ ch ∈ pre ++ post, ch ∈ [' ', '\t', '\r', '\n']) ∧
      ((sign = [] ∨ sign = ['+']) ∧ v = (ds.foldl (fun n d => 10 * n + d.val) 0 : Nat) ∨
        sign = ['-'] ∧ v = -(ds.foldl (fun n d => 10 * n + d.val) 0 : Nat))

/-- `NEW_CHANNEL(blocking)` appends one empty channel with that flag and changes nothing else (70_reset_and_hazards
R107). The handle is the model's (log 7). -/
def Obligations.NewChannelIsEmptyWithItsFlag : Prop :=
  ∀ (s : State) (b : Bool) (rest : List Command), s.running = none → s.commands = .newChannel b :: rest →
    ∃ s', step s = .next s' ∧ s'.channels = s.channels ++ [{ contents := [], blocking := b }] ∧
      s'.engines = s.engines ∧ s'.cfg = s.cfg ∧ s'.running = none ∧ s'.commands = rest ∧
      s'.results = s.results ++ [.channel s.channels.length]

/-- `PUSH` of a representable value onto a channel that is not full appends it as the newest; onto a full channel it
gives ChannelOverflow and changes nothing (44_io R86, R87; 60_exceptions R97; D13, log 12). -/
def Obligations.PushAppendsOrOverflows : Prop :=
  ∀ (s : State) (h : Nat) (v : Int) (rest : List Command) (ch : Channel), s.running = none →
    s.commands = .push h v :: rest → s.channels[h]? = some ch → Fits s.cfg.cellBits v →
    (ch.isFull s.cfg = false →
      ∃ s', step s = .next s' ∧ s'.channels = s.channels.set h { ch with contents := ch.contents ++ [v] } ∧
        s'.engines = s.engines ∧ s'.cfg = s.cfg ∧ s'.running = none ∧ s'.commands = rest ∧
        s'.results = s.results ++ [.ok]) ∧
    (ch.isFull s.cfg = true → ∃ s', step s = .next s' ∧ Answered s rest (.hostFault .channelOverflow) s')

/-- `POP` returns and removes the value `Pop` takes; of an empty channel it gives ChannelUnderflow and changes nothing
(44_io R88; 60_exceptions R97). -/
def Obligations.PopCommandReturnsOrUnderflows : Prop :=
  ∀ (s : State) (h : Nat) (rest : List Command) (ch : Channel), s.running = none → s.commands = .pop h :: rest →
    s.channels[h]? = some ch →
    (∀ v ch', ch.pop s.cfg = some (v, ch') →
      ∃ s', step s = .next s' ∧ s'.channels = s.channels.set h ch' ∧ s'.engines = s.engines ∧ s'.cfg = s.cfg ∧
        s'.running = none ∧ s'.commands = rest ∧ s'.results = s.results ++ [.value v]) ∧
    (ch.contents = [] → ∃ s', step s = .next s' ∧ Answered s rest (.hostFault .channelUnderflow) s')

/-- Run entry: a Halted Engine answers SIG_HALT and a Faulted one its record, with nothing executed; any other becomes
Running with memory, `len`, `ip` and `rb` as they were, and the two channels bound to it (40_engine R63, R64; D10, D11,
log 12). -/
def Obligations.RunEntryResumesOrAnswersAtOnce : Prop :=
  ∀ (s : State) (h inp out : Nat) (rest : List Command) (e : Engine), s.running = none →
    s.commands = .run h inp out :: rest → s.engine? h = some e → inp < s.channels.length →
    out < s.channels.length →
    (e.status = .halted → ∃ s', step s = .next s' ∧ Answered s rest (.signal 0) s') ∧
    (∀ f, e.status = .faulted f → ∃ s', step s = .next s' ∧ Answered s rest (.fault f) s') ∧
    (e.status = .running ∨ e.status = .suspendedOnInput ∨ e.status = .suspendedOnOutput →
      ∃ s', step s = .next s' ∧ s'.active = some (⟨h, inp, out⟩, { e with status := .running }) ∧
        (∀ k, k ≠ h → s'.engine? k = s.engine? k) ∧ s'.channels = s.channels ∧ s'.cfg = s.cfg ∧
        s'.commands = rest ∧ s'.results = s.results)

/-- `READ_MEM(e, a)` returns `M[a]` and changes no state, in every status; a negative address is refused (40_engine R72;
D16, log 12). -/
def Obligations.ReadMemObservesWithoutChange : Prop :=
  ∀ (s : State) (h : Nat) (a : Int) (rest : List Command) (e : Engine), s.running = none →
    s.commands = .readMem h a :: rest → s.engine? h = some e →
    (0 ≤ a → ∃ s', step s = .next s' ∧ Answered s rest (.value (e.mem.read a.toNat)) s') ∧
    (a < 0 → ∃ s', step s = .next s' ∧ Answered s rest .refused s')

/-- `CONTENTS` lists a channel's values, oldest first, and changes nothing; `DISCARD` removes one Engine and touches no
other Engine and no channel (40_engine R71; 10_state R25). -/
def Obligations.ContentsListsAndDiscardRemoves : Prop :=
  (∀ (s : State) (h : Nat) (rest : List Command) (ch : Channel), s.running = none →
    s.commands = .contents h :: rest → s.channels[h]? = some ch →
    ∃ s', step s = .next s' ∧ Answered s rest (.contents ch.contents) s') ∧
  (∀ (s : State) (h : Nat) (rest : List Command) (e : Engine), s.running = none →
    s.commands = .discard h :: rest → s.engine? h = some e →
    ∃ s', step s = .next s' ∧ s'.engine? h = none ∧ (∀ k, k ≠ h → s'.engine? k = s.engine? k) ∧
      s'.channels = s.channels ∧ s'.cfg = s.cfg ∧ s'.running = none ∧ s'.commands = rest ∧
      s'.results = s.results ++ [.ok])

/-- The numbers of the faults and of the DecodeFault subkinds (60_exceptions R92; they are the spec's decision D18,
log 12), and the kind of every fault of a run (R93) and of every fault of a host command (R97). -/
def Obligations.FaultCodesAreTheTables : Prop :=
  [FaultKind.decodeFault, .addressFault, .channelUnderflow, .malformedProgramText, .overflowFault, .capacityFault,
    .channelOverflow].map FaultKind.code = [1, 2, 3, 4, 5, 6, 7] ∧
  [DecodeSubkind.negativeWord, .badOpcode, .badMode, .extraModeDigits].map subkindCode = [1, 2, 3, 4] ∧
  (∀ sub w, (EngineFault.decode sub w).kind = .decodeFault) ∧ (∀ a, (EngineFault.address a).kind = .addressFault) ∧
  (∀ op, (EngineFault.overflow op).kind = .overflowFault) ∧ (∀ a, (EngineFault.capacity a).kind = .capacityFault) ∧
  EngineFault.channelUnderflow.kind = .channelUnderflow ∧ EngineFault.channelOverflow.kind = .channelOverflow ∧
  (∀ j, (HostFault.malformedProgramText j).kind = .malformedProgramText) ∧
  (∀ a, (HostFault.capacity a).kind = .capacityFault) ∧
  HostFault.channelUnderflow.kind = .channelUnderflow ∧ HostFault.channelOverflow.kind = .channelOverflow

/-- A word of the opcode table placed by `withFetchWord` after reset is what the next step runs: when the decoder reads
`i` from it, the step is `exec i` in a run of Engine 0 at `ip` = 0 with `rb` = 0. The placing is the model's convention
(log 4, log 5), and that reset holds an Engine 0 with those values is the model's choice (log 3). -/
def Obligations.PlacedTableWordRunsNext : Prop :=
  ∀ (nbits w : Nat) (i : Instr), decodeTableWord nbits w = some i →
    ∃ s e, step (State.reset.withFetchWord nbits w) = exec i s ∧ s.active = some (⟨0, 0, 1⟩, e) ∧ e.ip = 0 ∧
      e.rb = 0 ∧ e.status = .running
end

