-- ==== Sys2Proof/Laws/State.lean ====
section
/-! SUPPORT. One lemma per field of State per update, and what an update does to each Engine and channel. -/

namespace Sys2Proof.Machine

section fields

variable (s : State) (r : Run) (h : Nat) (e : Engine) (ch : Channel) (res : Result) (st : Status) (f : EngineFault)

@[simp] theorem setEngine_cfg : (s.setEngine h e).cfg = s.cfg := rfl
@[simp] theorem setEngine_channels : (s.setEngine h e).channels = s.channels := rfl
@[simp] theorem setEngine_running : (s.setEngine h e).running = s.running := rfl
@[simp] theorem setEngine_commands : (s.setEngine h e).commands = s.commands := rfl
@[simp] theorem setEngine_results : (s.setEngine h e).results = s.results := rfl
@[simp] theorem setChannel_cfg : (s.setChannel h ch).cfg = s.cfg := rfl
@[simp] theorem setChannel_engines : (s.setChannel h ch).engines = s.engines := rfl
@[simp] theorem setChannel_channels : (s.setChannel h ch).channels = s.channels.set h ch := rfl
@[simp] theorem setChannel_running : (s.setChannel h ch).running = s.running := rfl
@[simp] theorem setChannel_commands : (s.setChannel h ch).commands = s.commands := rfl
@[simp] theorem setChannel_results : (s.setChannel h ch).results = s.results := rfl
@[simp] theorem setChannel_engine? (k : Nat) : (s.setChannel h ch).engine? k = s.engine? k := rfl
@[simp] theorem report_cfg : (s.report res).cfg = s.cfg := rfl
@[simp] theorem report_engines : (s.report res).engines = s.engines := rfl
@[simp] theorem report_channels : (s.report res).channels = s.channels := rfl
@[simp] theorem report_running : (s.report res).running = s.running := rfl
@[simp] theorem report_commands : (s.report res).commands = s.commands := rfl
@[simp] theorem report_results : (s.report res).results = s.results ++ [res] := rfl
@[simp] theorem report_engine? (k : Nat) : (s.report res).engine? k = s.engine? k := rfl
@[simp] theorem goOn_cfg : (s.goOn r e).cfg = s.cfg := rfl
@[simp] theorem goOn_channels : (s.goOn r e).channels = s.channels := rfl
@[simp] theorem goOn_running : (s.goOn r e).running = s.running := rfl
@[simp] theorem goOn_commands : (s.goOn r e).commands = s.commands := rfl
@[simp] theorem goOn_results : (s.goOn r e).results = s.results := rfl
@[simp] theorem endRun_cfg : (s.endRun r e st res).cfg = s.cfg := rfl
@[simp] theorem endRun_channels : (s.endRun r e st res).channels = s.channels := rfl
@[simp] theorem endRun_running : (s.endRun r e st res).running = none := rfl
@[simp] theorem endRun_commands : (s.endRun r e st res).commands = s.commands := rfl
@[simp] theorem endRun_results : (s.endRun r e st res).results = s.results ++ [res] := rfl
@[simp] theorem takeFault_cfg : (s.takeFault r e f).cfg = s.cfg := rfl
@[simp] theorem takeFault_channels : (s.takeFault r e f).channels = s.channels := rfl
@[simp] theorem takeFault_running : (s.takeFault r e f).running = none := rfl
@[simp] theorem takeFault_commands : (s.takeFault r e f).commands = s.commands := rfl
@[simp] theorem takeFault_results :
    (s.takeFault r e f).results = s.results ++ [.fault ⟨f, e.ip⟩] := rfl

@[simp] theorem grow_mem (a : Nat) : (e.grow a).mem = e.mem := rfl
@[simp] theorem grow_ip (a : Nat) : (e.grow a).ip = e.ip := rfl
@[simp] theorem grow_rb (a : Nat) : (e.grow a).rb = e.rb := rfl
@[simp] theorem grow_status (a : Nat) : (e.grow a).status = e.status := rfl
@[simp] theorem store_mem (a : Nat) (v : Int) : (e.store a v).mem = e.mem.write a v := rfl
@[simp] theorem store_ip (a : Nat) (v : Int) : (e.store a v).ip = e.ip := rfl
@[simp] theorem store_rb (a : Nat) (v : Int) : (e.store a v).rb = e.rb := rfl
@[simp] theorem store_status (a : Nat) (v : Int) : (e.store a v).status = e.status := rfl
@[simp] theorem advance_mem (n : Nat) : (e.advance n).mem = e.mem := rfl
@[simp] theorem advance_len (n : Nat) : (e.advance n).len = e.len := rfl
@[simp] theorem advance_ip (n : Nat) : (e.advance n).ip = e.ip + n := rfl
@[simp] theorem advance_rb (n : Nat) : (e.advance n).rb = e.rb := rfl
@[simp] theorem advance_status (n : Nat) : (e.advance n).status = e.status := rfl

end fields

/-- Growth is a maximum (20_memory R28). -/
@[simp] theorem grow_len (e : Engine) (a : Nat) : (e.grow a).len = max e.len (a + 1) := by
  simp only [Engine.grow]; split <;> omega

@[simp] theorem store_len (e : Engine) (a : Nat) (v : Int) : (e.store a v).len = max e.len (a + 1) :=
  grow_len e a

/-- A live Engine's handle is an index of the list. -/
theorem lt_of_engine? {s : State} {h : Nat} {e : Engine} (he : s.engine? h = some e) : h < s.engines.length := by
  refine Nat.lt_of_not_le fun hle => ?_
  rw [State.engine?, List.getD_eq_default _ _ hle] at he
  cases he

theorem engine?_setEngine_self {s : State} {h : Nat} {e₀ : Engine} (he : s.engine? h = some e₀) (e : Engine) :
    (s.setEngine h e).engine? h = some e := by
  have := lt_of_engine? he
  simp [State.engine?, State.setEngine, List.getD, this]

theorem engine?_setEngine_ne {s : State} {h k : Nat} (hk : k ≠ h) (e : Engine) :
    (s.setEngine h e).engine? k = s.engine? k := by
  simp [State.engine?, State.setEngine, List.getD, List.getElem?_set_ne (Ne.symm hk)]

theorem setEngine_setEngine (s : State) (h : Nat) (e e' : Engine) :
    (s.setEngine h e).setEngine h e' = s.setEngine h e' := by
  simp [State.setEngine]

/-- `active` is the run in progress with its live Engine. -/
theorem active_eq_some {s : State} {r : Run} {e : Engine} :
    s.active = some (r, e) ↔ s.running = some r ∧ s.engine? r.engine = some e := by
  simp only [State.active]
  constructor
  · intro h
    split at h
    · cases h
    · split at h
      · cases h
      · cases h; exact ⟨‹_›, ‹_›⟩
  · rintro ⟨h₁, h₂⟩; simp [h₁, h₂]

/-- Putting an Engine back does not end the run. -/
theorem active_goOn {s : State} {r : Run} {e₀ : Engine} (h : s.active = some (r, e₀)) (e : Engine) :
    (s.goOn r e).active = some (r, e) := by
  have ⟨h₁, h₂⟩ := active_eq_some.1 h
  exact active_eq_some.2 ⟨h₁, engine?_setEngine_self h₂ e⟩

/-- `goOn` replaces the running Engine and nothing else. -/
theorem continues_goOn {s : State} {r : Run} {e₀ : Engine} (h : s.active = some (r, e₀)) (e : Engine) :
    Continues s r e s.channels (s.goOn r e) :=
  ⟨rfl, engine?_setEngine_self (active_eq_some.1 h).2 e, fun _ hk => engine?_setEngine_ne hk e, rfl, rfl, rfl, rfl⟩

/-- `endRun` replaces the running Engine, ends the run and reports; nothing else. -/
theorem ends_endRun {s : State} {r : Run} {e₀ : Engine} (h : s.active = some (r, e₀)) (e : Engine) (st : Status)
    (res : Result) : Ends s r { e with status := st } s.channels res (s.endRun r e st res) :=
  ⟨rfl, engine?_setEngine_self (active_eq_some.1 h).2 _, fun _ hk => engine?_setEngine_ne hk _, rfl, rfl, rfl, rfl⟩

/-- What taking a fault does (60_exceptions R95), from an Engine that differs from `e₀` at most in its length. -/
theorem takesFault_takeFault {s : State} {r : Run} {e₀ : Engine} (h : s.active = some (r, e₀)) {l : Nat}
    (hl : e₀.len ≤ l) (f : EngineFault) : TakesFault s r e₀ f (s.takeFault r { e₀ with len := l } f) :=
  ⟨{ e₀ with len := l, status := .faulted ⟨f, e₀.ip⟩ }, ⟨fun _ => rfl, hl, rfl, rfl, rfl⟩,
    ends_endRun h { e₀ with len := l } _ _⟩

theorem setChannel_active (s : State) (h : Nat) (ch : Channel) : (s.setChannel h ch).active = s.active := rfl

end Sys2Proof.Machine
end

