-- ==== Sys2Proof/Laws/Channels.lean ====
section
/-! SUPPORT. What the channel primitives can answer (44_io R87, R88), said once. -/

namespace Sys2Proof.Machine

/-- `Pop` fails exactly on an empty channel. -/
theorem pop_none {c : Config} {ch : Channel} : ch.pop c = none ↔ ch.contents = [] := by
  cases ch with | mk xs b =>
  rcases c with ⟨_, _, _, o, _, _⟩
  cases o
  · rcases List.eq_nil_or_concat xs with rfl | ⟨ys, y, rfl⟩ <;> simp [Channel.pop]
  · cases xs <;> simp [Channel.pop]

/-- `Pop` keeps the blocking flag (10_state R24). -/
theorem pop_blocking {c : Config} {ch ch' : Channel} {v : Int} (hp : ch.pop c = some (v, ch')) : ch'.blocking = ch.blocking := by
  simp only [Channel.pop] at hp
  split at hp <;> split at hp <;> cases hp <;> rfl

/-- `Pop` of a good channel gives a representable value and a good channel. -/
theorem pop_ok {c : Config} {ch ch' : Channel} {v : Int} (h : ch.Ok c) (hp : ch.pop c = some (v, ch')) :
    Fits c.cellBits v ∧ ch'.Ok c ∧ ch'.blocking = ch.blocking := by
  obtain ⟨hv, hd⟩ := h
  cases ch with | mk xs b =>
  simp only [Channel.pop] at hp
  split at hp
  · rcases List.eq_nil_or_concat xs with rfl | ⟨ys, y, rfl⟩
    · simp at hp
    · simp at hp; obtain ⟨rfl, rfl⟩ := hp
      refine ⟨hv _ (by simp), ⟨fun x hx => hv x (by simp [hx]), fun d hd' => ?_⟩, rfl⟩
      have := hd d hd'; simp at this ⊢; omega
  · cases xs with
    | nil => simp at hp
    | cons x xs =>
      simp at hp; obtain ⟨rfl, rfl⟩ := hp
      refine ⟨hv _ (by simp), ⟨fun x hx => hv x (by simp [hx]), fun d hd' => ?_⟩, rfl⟩
      have := hd d hd'; simp at this ⊢; omega

/-- `Push` succeeds only on a channel that is not full, and appends. -/
theorem push_some {c : Config} {ch ch' : Channel} {v : Int} (hp : ch.push c v = some ch') :
    ch.isFull c = false ∧ ch' = { ch with contents := ch.contents ++ [v] } := by
  simp only [Channel.push] at hp
  split at hp
  · cases hp
  · cases hp; exact ⟨by simpa using ‹¬ ch.isFull c = true›, rfl⟩

/-- `Push` keeps the blocking flag (10_state R24). -/
theorem push_blocking {c : Config} {ch ch' : Channel} {v : Int} (hp : ch.push c v = some ch') : ch'.blocking = ch.blocking := by
  rw [(push_some hp).2]

/-- `Push` of a representable value keeps a channel good. -/
theorem push_ok {c : Config} {ch ch' : Channel} {v : Int} (h : ch.Ok c) (hv : Fits c.cellBits v) (hp : ch.push c v = some ch') :
    ch'.Ok c ∧ ch'.blocking = ch.blocking := by
  obtain ⟨hf, rfl⟩ := push_some hp
  refine ⟨⟨fun x hx => ?_, fun d hd => ?_⟩, rfl⟩
  · rcases List.mem_append.1 hx with hx | hx
    · exact h.values x hx
    · simp at hx; subst hx; exact hv
  · simp [Channel.isFull, hd] at hf; simp; omega

end Sys2Proof.Machine
end

