-- ==== Sys2Proof/Laws/Memory.lean ====
section
/-! SUPPORT. The laws of memory: read after write, the canonical form kept by every memory operation, and where a
memory's entries come from. -/

namespace Sys2Proof.Machine

theorem Memory.wf_tail {p : Nat × Int} {m : Memory} (h : Memory.wf (p :: m)) : Memory.wf m :=
  ⟨(List.pairwise_cons.1 h.1).2, fun q hq => h.2 q (List.mem_cons_of_mem _ hq)⟩

/-- In canonical form every address of the tail lies above the head's. -/
theorem Memory.wf_head_lt {b : Nat} {x : Int} {m : Memory} (h : Memory.wf ((b, x) :: m)) :
    ∀ q ∈ m, b < q.1 := fun q hq => (List.pairwise_cons.1 h.1).1 q hq

/-- An address that is not listed reads 0 (20_memory R26). -/
theorem Memory.read_unlisted {m : Memory} {a : Nat} (h : ∀ p ∈ m, p.1 ≠ a) : m.read a = 0 := by
  induction m with
  | nil => rfl
  | cons p m ih =>
    obtain ⟨b, x⟩ := p
    have hb : b ≠ a := h (b, x) (List.mem_cons_self ..)
    simp [Memory.read, hb, ih fun q hq => h q (List.mem_cons_of_mem _ hq)]

/-- What a read gives is 0 or a listed value. -/
theorem Memory.read_mem_or_zero (m : Memory) (a : Nat) : m.read a = 0 ∨ (a, m.read a) ∈ m := by
  induction m with
  | nil => exact .inl rfl
  | cons p m ih =>
    obtain ⟨b, x⟩ := p
    by_cases hb : b = a
    · subst hb; simp [Memory.read]
    · rcases ih with h | h
      · exact .inl (by simp [Memory.read, hb, h])
      · exact .inr (by simp [Memory.read, hb, h])

/-- Read after write, in canonical memories (20_memory R30, R36). -/
theorem Memory.read_write {m : Memory} (h : m.wf) (a b : Nat) (v : Int) :
    (m.write a v).read b = if b = a then v else m.read b := by
  induction m with
  | nil =>
    by_cases hb : a = b
    · subst hb; by_cases hv : v = 0 <;> simp [Memory.write, Memory.read, hv]
    · by_cases hv : v = 0 <;> simp [Memory.write, Memory.read, hv, hb, Ne.symm hb]
  | cons p m ih =>
    obtain ⟨c, x⟩ := p
    have hlt := Memory.wf_head_lt h
    have hm := Memory.wf_tail h
    simp only [Memory.write]
    rcases Nat.lt_trichotomy a c with hac | hac | hac
    · simp only [hac, if_true]
      by_cases hv : v = 0
      · simp only [hv, if_true]
        split
        · subst b
          exact Memory.read_unlisted fun q hq => by
            rcases List.mem_cons.1 hq with rfl | hq
            · simp; omega
            · have := hlt q hq; omega
        · rfl
      · simp only [hv, if_false, Memory.read]
        by_cases hb : a = b
        · simp [hb]
        · simp [hb, Ne.symm hb]
    · subst hac
      simp only [Nat.lt_irrefl, if_false, if_true]
      by_cases hv : v = 0
      · simp only [hv, if_true]
        by_cases hb : b = a
        · subst hb
          simpa using Memory.read_unlisted fun q hq => by have := hlt q hq; omega
        · simp [Memory.read, hb, Ne.symm hb]
      · by_cases hb : a = b <;> simp [hv, Memory.read, hb, eq_comm]
    · have h1 : ¬ a < c := by omega
      have h2 : ¬ a = c := by omega
      simp only [h1, h2, if_false, Memory.read, ih hm]
      by_cases hb : c = b
      · subst hb; simp [Ne.symm h2]
      · simp [hb]

/-- Every entry of a written memory is the new one or an old one at another address. -/
theorem Memory.mem_write {m : Memory} (h : m.wf) {a : Nat} {v : Int} {p : Nat × Int} (hp : p ∈ m.write a v) :
    (p = (a, v) ∧ v ≠ 0) ∨ (p ∈ m ∧ p.1 ≠ a) := by
  induction m with
  | nil =>
    by_cases hv : v = 0
    · simp [Memory.write, hv] at hp
    · simp [Memory.write, hv] at hp; exact .inl ⟨hp, hv⟩
  | cons q m ih =>
    obtain ⟨c, x⟩ := q
    have hlt := Memory.wf_head_lt h
    have old : ∀ p ∈ m, a ≤ c → p.1 ≠ a := fun p hp hac => by have := hlt p hp; omega
    simp only [Memory.write] at hp
    split at hp
    · rename_i hac
      have key : p ∈ (c, x) :: m → (p ∈ (c, x) :: m ∧ p.1 ≠ a) := fun hp => ⟨hp, by
        rcases List.mem_cons.1 hp with rfl | hp
        · simp; omega
        · exact old p hp (by omega)⟩
      split at hp
      · exact .inr (key hp)
      · rcases List.mem_cons.1 hp with hp | hp
        · exact .inl ⟨hp, ‹_›⟩
        · exact .inr (key hp)
    · split at hp
      · rename_i hac
        subst hac
        split at hp
        · exact .inr ⟨List.mem_cons_of_mem _ hp, old p hp (Nat.le_refl _)⟩
        · rcases List.mem_cons.1 hp with hp | hp
          · exact .inl ⟨hp, ‹_›⟩
          · exact .inr ⟨List.mem_cons_of_mem _ hp, old p hp (Nat.le_refl _)⟩
      · rename_i hac
        rcases List.mem_cons.1 hp with rfl | hp
        · exact .inr ⟨List.mem_cons_self .., fun h => hac h.symm⟩
        · exact (ih (Memory.wf_tail h) hp).imp id fun ⟨h₁, h₂⟩ => ⟨List.mem_cons_of_mem _ h₁, h₂⟩

/-- A write keeps the canonical form. -/
theorem Memory.write_wf {m : Memory} (h : m.wf) (a : Nat) (v : Int) : (m.write a v).wf := by
  refine ⟨?_, fun p hp => ?_⟩
  · induction m with
    | nil => by_cases hv : v = 0 <;> simp [Memory.write, hv]
    | cons q m ih =>
      obtain ⟨c, x⟩ := q
      have hlt := Memory.wf_head_lt h
      have hm := Memory.wf_tail h
      simp only [Memory.write]
      split
      · split
        · exact h.1
        · refine List.pairwise_cons.2 ⟨fun q hq => ?_, h.1⟩
          rcases List.mem_cons.1 hq with rfl | hq
          · assumption
          · have := hlt q hq; simp; omega
      · split
        · split
          · exact hm.1
          · subst a; exact List.pairwise_cons.2 ⟨hlt, hm.1⟩
        · refine List.pairwise_cons.2 ⟨fun q hq => ?_, ih hm⟩
          rcases Memory.mem_write hm hq with ⟨rfl, -⟩ | ⟨hq, -⟩
          · simp; omega
          · exact hlt q hq
  · rcases Memory.mem_write h hp with ⟨rfl, hv⟩ | ⟨hp, -⟩
    · exact hv
    · exact h.2 p hp

/-- A loaded memory lists only program words at their addresses. -/
theorem Memory.mem_ofWords {vs : List Int} {b : Nat} {p : Nat × Int} (hp : p ∈ Memory.ofWords b vs) :
    b ≤ p.1 ∧ p.1 < b + vs.length ∧ p.2 ∈ vs ∧ p.2 ≠ 0 := by
  induction vs generalizing b with
  | nil => simp [Memory.ofWords] at hp
  | cons v vs ih =>
    have step : ∀ hp : p ∈ Memory.ofWords (b + 1) vs, _ := fun hp => ih hp
    simp only [Memory.ofWords] at hp
    split at hp
    · obtain ⟨h₁, h₂, h₃, h₄⟩ := step hp
      exact ⟨by omega, by simp; omega, List.mem_cons_of_mem _ h₃, h₄⟩
    · rcases List.mem_cons.1 hp with rfl | hp
      · exact ⟨Nat.le_refl _, by simp, List.mem_cons_self .., ‹_›⟩
      · obtain ⟨h₁, h₂, h₃, h₄⟩ := step hp
        exact ⟨by omega, by simp; omega, List.mem_cons_of_mem _ h₃, h₄⟩

/-- A loaded memory is canonical. -/
theorem Memory.ofWords_wf (vs : List Int) (b : Nat) : (Memory.ofWords b vs).wf := by
  refine ⟨?_, fun p hp => (Memory.mem_ofWords hp).2.2.2⟩
  induction vs generalizing b with
  | nil => exact List.Pairwise.nil
  | cons v vs ih =>
    simp only [Memory.ofWords]
    split
    · exact ih _
    · exact List.pairwise_cons.2 ⟨fun q hq => (Memory.mem_ofWords hq).1, ih _⟩

/-- A loaded memory holds the words at `base, base + 1, ...` and 0 elsewhere (70_reset_and_hazards R106). -/
theorem Memory.read_ofWords (vs : List Int) (b a : Nat) :
    (Memory.ofWords b vs).read a = if b ≤ a then vs.getD (a - b) 0 else 0 := by
  induction vs generalizing b with
  | nil => simp [Memory.ofWords, Memory.read]
  | cons v vs ih =>
    rcases Nat.lt_trichotomy a b with h | h | h
    · have h1 : ¬ b ≤ a := by omega
      have h2 : ¬ b + 1 ≤ a := by omega
      have h3 : b ≠ a := by omega
      simp only [Memory.ofWords]; split <;> simp [Memory.read, ih, h2, h3]
    · subst h
      have h2 : ¬ a + 1 ≤ a := by omega
      simp only [Memory.ofWords]; split <;> simp_all [Memory.read]
    · have h1 : b ≤ a := by omega
      have h2 : b + 1 ≤ a := by omega
      have h3 : b ≠ a := by omega
      obtain ⟨k, rfl⟩ := Nat.exists_eq_add_of_lt h
      have h4 : b + k + 1 - b = k + 1 := by omega
      have h5 : b + k + 1 - (b + 1) = k := by omega
      simp only [Memory.ofWords]; rw [if_pos h1]; split <;> simp [Memory.read, ih, h2, h3, h4, h5]

/-- Storing many cells keeps the canonical form. -/
theorem Memory.writeMany_wf (vs : List Int) {m : Memory} (h : m.wf) (a : Nat) : (m.writeMany a vs).wf := by
  induction vs generalizing m a with
  | nil => exact h
  | cons v vs ih => exact ih (Memory.write_wf h a v) _

/-- Storing many cells: the words from `a` on, the old value elsewhere. -/
theorem Memory.read_writeMany (vs : List Int) {m : Memory} (h : m.wf) (a b : Nat) :
    (m.writeMany a vs).read b = if a ≤ b ∧ b < a + vs.length then vs.getD (b - a) 0 else m.read b := by
  induction vs generalizing m a with
  | nil => rw [if_neg (by simp)]; rfl
  | cons v vs ih =>
    simp only [Memory.writeMany, ih (Memory.write_wf h a v), Memory.read_write h, List.length_cons]
    rcases Nat.lt_trichotomy b a with hb | hb | hb
    · have h1 : ¬ (a + 1 ≤ b ∧ b < a + 1 + vs.length) := by omega
      have h2 : ¬ (a ≤ b ∧ b < a + (vs.length + 1)) := by omega
      have h3 : b ≠ a := by omega
      rw [if_neg h1, if_neg h2, if_neg h3]
    · subst hb
      simp
    · obtain ⟨k, rfl⟩ := Nat.exists_eq_add_of_lt hb
      have h4 : a + k + 1 - a = k + 1 := by omega
      have h5 : a + k + 1 - (a + 1) = k := by omega
      have h3 : a + k + 1 ≠ a := by omega
      have h6 : (a + 1 ≤ a + k + 1 ∧ a + k + 1 < a + 1 + vs.length) ↔
          (a ≤ a + k + 1 ∧ a + k + 1 < a + (vs.length + 1)) := by omega
      simp only [h4, h5, h3, h6, if_false, List.getD_cons_succ]

end Sys2Proof.Machine
end

