-- ==== Sys2Proof/Laws/Operands.lean ====
section
/-! SUPPORT. What resolving operands can answer: said once, with the spec's list of checks (30_encoding R51) on one side
and the model's operations on the other. -/

namespace Sys2Proof.Machine

/-! ## What the length does not change -/

@[simp] theorem operandValue_len (e : Engine) (l : Nat) (o : Operand) :
    operandValue { e with len := l } o = operandValue e o := by
  cases o with | mk m v => cases m <;> rfl

@[simp] theorem readAddr_len (e : Engine) (l : Nat) (o : Operand) : readAddr { e with len := l } o = readAddr e o := by
  cases o with | mk m v => cases m <;> rfl

@[simp] theorem destAddr_len (e : Engine) (l : Nat) (o : Operand) : destAddr { e with len := l } o = destAddr e o := by
  cases o with | mk m v => cases m <;> rfl

@[simp] theorem readChecks_len (e : Engine) (l i : Nat) (o : Operand) :
    readChecks { e with len := l } i o = readChecks e i o := by
  simp only [readChecks, readAddr_len]

@[simp] theorem destChecks_len (e : Engine) (l i : Nat) (o : Operand) :
    destChecks { e with len := l } i o = destChecks e i o := by
  simp only [destChecks, destAddr_len]

@[simp] theorem checks_len (e : Engine) (l : Nat) (i : Instr) : checks { e with len := l } i = checks e i := by
  cases i <;> simp only [checks, readChecks_len, destChecks_len]

/-! ## The address check -/

theorem checkAddr_eq_ok {c : Config} {a : Int} (h : AddrOk c a) : checkAddr c a = .ok a.toNat := by
  have h0 : ¬ a < 0 := by have := h.1; omega
  simp [checkAddr, h0, h.2]

theorem addrOk_of_checkAddr {c : Config} {a : Int} {n : Nat} (h : checkAddr c a = .ok n) :
    AddrOk c a ∧ n = a.toNat := by
  simp only [checkAddr] at h
  split at h
  · cases h
  · split at h
    · cases h; exact ⟨⟨by omega, ‹_›⟩, rfl⟩
    · cases h

theorem firstFault_eq_none {c : Config} {as : List Int} :
    firstFault c as = none ↔ ∀ a ∈ as, AddrOk c a := by
  induction as with
  | nil => simp [firstFault]
  | cons a as ih =>
    simp only [firstFault, List.forall_mem_cons]
    cases hc : checkAddr c a with
    | error f => exact ⟨nofun, fun h => by rw [checkAddr_eq_ok h.1] at hc; cases hc⟩
    | ok n => exact ⟨fun h => ⟨(addrOk_of_checkAddr hc).1, ih.1 h⟩, fun h => ih.2 h.2⟩

theorem firstFault_append (c : Config) (as bs : List Int) :
    firstFault c (as ++ bs) = (firstFault c as).or (firstFault c bs) := by
  induction as with
  | nil => simp [firstFault]
  | cons a as ih => simp only [List.cons_append, firstFault]; split <;> simp [ih]

/-! ## Growth -/

theorem grownLen_append (l : Nat) (as bs : List Int) : grownLen l (as ++ bs) = grownLen (grownLen l as) bs := by
  simp [grownLen]

/-- `l` is a length that accesses within MEM_LIMIT can have grown `len` to. -/
structure Grown (c : Config) (len l : Nat) : Prop where
  le : len ≤ l
  ok : lengthOk c len = true → lengthOk c l = true

theorem Grown.refl (c : Config) (l : Nat) : Grown c l l := ⟨Nat.le_refl _, id⟩

theorem Grown.trans {c : Config} {a b d : Nat} (h₁ : Grown c a b) (h₂ : Grown c b d) : Grown c a d :=
  ⟨Nat.le_trans h₁.le h₂.le, h₂.ok ∘ h₁.ok⟩

theorem lengthOk_succ {c : Config} {a : Nat} (h : addressable c a = true) : lengthOk c (a + 1) = true := by
  unfold addressable at h; unfold lengthOk
  split at h <;> simp_all

theorem lengthOk_mono {c : Config} {a b : Nat} (hab : a ≤ b) (h : lengthOk c b = true) : lengthOk c a = true := by
  unfold lengthOk at *
  split at h <;> simp_all; omega

theorem lengthOk_max {c : Config} {a b : Nat} (ha : lengthOk c a = true) (hb : lengthOk c b = true) :
    lengthOk c (max a b) = true := by
  rcases Nat.le_total a b with h | h <;> simp [h, ha, hb]

theorem Grown.access {c : Config} {a : Int} (h : AddrOk c a) (l : Nat) : Grown c l (max l (a.toNat + 1)) :=
  ⟨Nat.le_max_left .., fun hl => lengthOk_max hl (lengthOk_succ h.2)⟩

theorem grown_grownLen {c : Config} {as : List Int} (h : ∀ a ∈ as, AddrOk c a) (l : Nat) :
    Grown c l (grownLen l as) := by
  induction as generalizing l with
  | nil => exact .refl ..
  | cons a as ih =>
    exact (Grown.access (h a (List.mem_cons_self ..)) l).trans (ih (fun b hb => h b (List.mem_cons_of_mem _ hb)) _)

/-! ## Resolving -/

/-- `x` is an access of the Engine `e` that checks the addresses `cs` in order: with no fault among them it gives `v`
and grows `len` by the addresses `gs`, and otherwise it raises the first fault. -/
structure Meets {α : Type} (c : Config) (e : Engine) (cs gs : List Int) (v : α) (x : Access α) : Prop where
  sub : ∀ a ∈ gs, a ∈ cs
  ok : firstFault c cs = none → x = .ok v { e with len := grownLen e.len gs }
  raise : ∀ f, firstFault c cs = some f → ∃ l, Grown c e.len l ∧ x = .raise f { e with len := l }

theorem Meets.andThen {α β : Type} {c : Config} {e : Engine} {cs gs cs' gs' : List Int} {v : α} {v' : β}
    {x : Access α} {k : α → Engine → Access β} (hx : Meets c e cs gs v x)
    (hk : ∀ l, Meets c { e with len := l } cs' gs' v' (k v { e with len := l })) :
    Meets c e (cs ++ cs') (gs ++ gs') v' (x.andThen k) where
  sub a ha := by
    rcases List.mem_append.1 ha with ha | ha
    · exact List.mem_append_left _ (hx.sub a ha)
    · exact List.mem_append_right _ ((hk 0).sub a ha)
  ok hn := by
    rw [firstFault_append, Option.or_eq_none_iff] at hn
    rw [hx.ok hn.1, grownLen_append]
    exact (hk _).ok hn.2
  raise f hf := by
    rw [firstFault_append] at hf
    cases hc : firstFault c cs with
    | some g =>
      rw [hc] at hf
      cases hf
      obtain ⟨l, hl, hxl⟩ := hx.raise _ hc
      exact ⟨l, hl, by rw [hxl]; rfl⟩
    | none =>
      rw [hc] at hf
      obtain ⟨l, hl, hkl⟩ := (hk (grownLen e.len gs)).raise f hf
      have hg := grown_grownLen (fun a ha => firstFault_eq_none.1 hc a (hx.sub a ha)) e.len
      exact ⟨l, hg.trans hl, by rw [hx.ok hc]; exact hkl⟩

/-- An access that checks one address `a`, and grows by it or not. -/
theorem meets_check {α : Type} {c : Config} {e : Engine} {a : Int} {v : α} {gs : List Int} {x : Access α}
    (hgs : ∀ b ∈ gs, b = a) (ok : AddrOk c a → x = .ok v { e with len := grownLen e.len gs })
    (err : ∀ f, checkAddr c a = .error f → x = .raise f e) : Meets c e [a] gs v x where
  sub b hb := by simp [hgs b hb]
  ok hn := ok (firstFault_eq_none.1 hn a (List.mem_singleton_self a))
  raise f hf := by
    refine ⟨e.len, .refl .., ?_⟩
    have : checkAddr c a = .error f := by
      simp only [firstFault] at hf
      split at hf
      · cases hf; assumption
      · cases hf
    simpa using err f this

theorem grow_eq (e : Engine) (a : Int) : e.grow a.toNat = { e with len := grownLen e.len [a] } := by
  have := grow_len e a.toNat
  simp only [Engine.grow] at this ⊢
  simp [grownLen, this]

theorem meets_memRead (c : Config) (e : Engine) (a : Int) : Meets c e [a] [a] (e.mem.read a.toNat) (memRead c e a) :=
  meets_check (by simp) (fun h => by simp [memRead, checkAddr_eq_ok h, grow_eq]) fun f h => by simp [memRead, h]

theorem meets_fetchLit (c : Config) (e : Engine) (i : Nat) (lit : Int) :
    Meets c e [((e.ip + i : Nat) : Int)] [((e.ip + i : Nat) : Int)] lit (fetchLit c e i lit) :=
  meets_check (by simp) (fun h => by simp only [fetchLit, checkAddr_eq_ok h, grow_eq]) fun f h => by
    simp only [fetchLit, h]

theorem meets_value {α : Type} (c : Config) (e : Engine) (v : α) : Meets c e [] [] v (Access.ok v e) where
  sub := by simp
  ok _ := rfl
  raise f hf := by cases hf

/-- A read operand (30_encoding R46, R47, R48). -/
theorem meets_readOperand (c : Config) (e : Engine) (i : Nat) (o : Operand) :
    Meets c e (readChecks e i o) (readChecks e i o) (operandValue e o) (readOperand c e i o) := by
  refine (meets_fetchLit c e i o.lit).andThen (cs' := (readAddr e o).toList) (gs' := (readAddr e o).toList)
    fun l => ?_
  cases hm : o.mode <;> simp only [readAddr, operandValue, hm, Option.toList]
  · exact meets_memRead ..
  · exact meets_value ..
  · exact meets_memRead ..

/-- A destination operand (R49). -/
theorem meets_destOperand (c : Config) (e : Engine) (i : Nat) (o : Operand) :
    Meets c e (destChecks e i o) [((e.ip + i : Nat) : Int)] (destAddr e o).toNat (destOperand c e i o) := by
  refine (meets_fetchLit c e i o.lit).andThen (cs' := [destAddr e o]) (gs' := []) fun l => ?_
  refine meets_check (by simp) (fun h => ?_) fun f h => ?_ <;>
    cases hm : o.mode <;> simp only [destAddr, hm] at h ⊢
  all_goals first | simp [checkAddr_eq_ok h, grownLen] | simp [h]

theorem meets_aluOperands (a b d : Operand) (c : Config) (e : Engine) :
    Meets c e (readChecks e 1 a ++ readChecks e 2 b ++ destChecks e 3 d)
      (readChecks e 1 a ++ readChecks e 2 b ++ [((e.ip + 3 : Nat) : Int)])
      (operandValue e a, operandValue e b, (destAddr e d).toNat) (aluOperands a b d c e) := by
  rw [List.append_assoc, List.append_assoc]
  refine (meets_readOperand c e 1 a).andThen fun l₁ => ?_
  refine (meets_readOperand c { e with len := l₁ } 2 b).andThen fun l₂ => ?_
  have := (meets_destOperand c { e with len := l₂ } 3 d).andThen
    (k := fun ea e₃ => Access.ok (operandValue e a, operandValue e b, ea) e₃) fun l₃ => meets_value c { e with len := l₃ } _
  simpa only [List.append_nil, operandValue_len, readChecks_len, destChecks_len, destAddr_len] using this

theorem meets_jumpOperands (x t : Operand) (c : Config) (e : Engine) :
    Meets c e (readChecks e 1 x ++ readChecks e 2 t) (readChecks e 1 x ++ readChecks e 2 t)
      (operandValue e x, operandValue e t) (jumpOperands x t c e) := by
  refine (meets_readOperand c e 1 x).andThen fun l₁ => ?_
  have := (meets_readOperand c { e with len := l₁ } 2 t).andThen
    (k := fun vt e₂ => Access.ok (operandValue e x, vt) e₂) fun l₂ => meets_value c { e with len := l₂ } _
  simpa only [List.append_nil, operandValue_len, readChecks_len] using this

theorem meets_sourceOperand (a : Operand) (c : Config) (e : Engine) :
    Meets c e (readChecks e 1 a) (readChecks e 1 a) (operandValue e a) (sourceOperand a c e) :=
  meets_readOperand c e 1 a

theorem meets_targetOperand (d : Operand) (c : Config) (e : Engine) :
    Meets c e (destChecks e 1 d) [((e.ip + 1 : Nat) : Int)] (destAddr e d).toNat (targetOperand d c e) :=
  meets_destOperand c e 1 d

theorem meets_noOperand (c : Config) (e : Engine) : Meets c e [] [] () (noOperand c e) := meets_value c e ()

/-! ## Decode, then Execute -/

/-- With every check passed, the instruction executes on the resolved operands. -/
theorem decodeThen_ok {α : Type} {s : State} {r : Run} {e : Engine} (ha : s.active = some (r, e))
    {phase : Config → Engine → Access α} {k : Run → Engine → α → Out} {cs gs : List Int} {v : α}
    (hp : Meets s.cfg e cs gs v (phase s.cfg e)) (hn : firstFault s.cfg cs = none) :
    s.decodeThen phase k = k r { e with len := grownLen e.len gs } v := by
  simp only [State.decodeThen, ha]; rw [hp.ok hn]

/-- Otherwise the first failing check's fault is taken. -/
theorem decodeThen_raise {α : Type} {s : State} {r : Run} {e : Engine} (ha : s.active = some (r, e))
    {phase : Config → Engine → Access α} {k : Run → Engine → α → Out} {cs gs : List Int} {v : α} {f : EngineFault}
    (hp : Meets s.cfg e cs gs v (phase s.cfg e)) (hf : firstFault s.cfg cs = some f) :
    ∃ l, Grown s.cfg e.len l ∧ s.decodeThen phase k = .next (s.takeFault r { e with len := l } f) := by
  obtain ⟨l, hl, hx⟩ := hp.raise f hf
  exact ⟨l, hl, by simp only [State.decodeThen, ha]; rw [hx]⟩

/-- An instruction executes only inside a run (00_scope R9). -/
theorem decodeThen_noRun {α : Type} {s : State} (ha : s.active = none) (phase : Config → Engine → Access α)
    (k : Run → Engine → α → Out) : s.decodeThen phase k = .fault .noRun := by
  simp only [State.decodeThen, ha]

/-- What `decodeThen` can answer when it answers a next state: the first fault taken, or the execution. -/
theorem decodeThen_cases {α : Type} {s : State} {r : Run} {e : Engine} (ha : s.active = some (r, e))
    {phase : Config → Engine → Access α} {k : Run → Engine → α → Out} {cs gs : List Int} {v : α}
    (hp : Meets s.cfg e cs gs v (phase s.cfg e)) {o : Out} (h : s.decodeThen phase k = o) :
    (∃ f l, Grown s.cfg e.len l ∧ o = .next (s.takeFault r { e with len := l } f)) ∨
    ((∀ a ∈ cs, AddrOk s.cfg a) ∧ k r { e with len := grownLen e.len gs } v = o) := by
  cases hc : firstFault s.cfg cs with
  | none => exact .inr ⟨firstFault_eq_none.1 hc, (decodeThen_ok ha hp hc).symm.trans h⟩
  | some f =>
    obtain ⟨l, hl, hd⟩ := decodeThen_raise (k := k) ha hp hc
    exact .inl ⟨f, l, hl, h.symm.trans hd⟩

end Sys2Proof.Machine
end

