-- ==== Sys2Proof/Laws/Exec.lean ====
section
/-! SUPPORT. What an instruction can do, said once: `Effect` lists every way `exec` answers a next state, and
`exec_effect` derives it; invariants and whole-machine rules are case analyses of `Effect`. -/

namespace Sys2Proof.Machine

/-- Every next state an instruction can lead to from the Engine `e` inside the run `r`. -/
inductive Effect (s : State) (r : Run) (e : Engine) : Instr → State → Prop where
  /-- a fault is taken -/
  | fault {i : Instr} {f : EngineFault} {l : Nat} (grown : Grown s.cfg e.len l) :
      Effect s r e i (s.takeFault r { e with len := l } f)
  /-- ADD, MUL, LT, EQ write a representable result -/
  | alu {i : Instr} {d : Operand} {x : Int} {l : Nat} (count : i.operands.length = 3)
      (dest : destination i = some d) (grown : Grown s.cfg e.len l)
      (addr : AddrOk s.cfg (destAddr e d)) (next : lengthOk s.cfg (e.ip + 4) = true)
      (fits : 64 ≤ s.cfg.cellBits → Fits s.cfg.cellBits x) :
      Effect s r e i (s.goOn r (({ e with len := l }.store (destAddr e d).toNat x).advance 4))
  /-- JT, JF set `ip` -/
  | jump {i : Instr} {l n : Nat} (count : i.operands.length = 2) (grown : Grown s.cfg e.len l) (next : lengthOk s.cfg n = true) :
      Effect s r e i (s.goOn r { e with len := l, ip := n })
  /-- ARB writes `rb` -/
  | base {a : Operand} {x : Int} {l : Nat} (grown : Grown s.cfg e.len l) (next : lengthOk s.cfg (e.ip + 2) = true)
      (fits : Fits s.cfg.cellBits x) :
      Effect s r e (.arb a) (s.goOn r { e with len := l, ip := e.ip + 2, rb := x })
  /-- IN waits on an empty blocking channel -/
  | inputWait {d : Operand} {ch : Channel} {l : Nat} (grown : Grown s.cfg e.len l)
      (chan : s.channels[r.inp]? = some ch) (empty : ch.pop s.cfg = none) (blocks : ch.blocking = true) :
      Effect s r e (.inp d) (s.endRun r { e with len := l } .suspendedOnInput (.signal s.cfg.sigIn))
  /-- IN completes and the run goes on -/
  | input {d : Operand} {ch ch' : Channel} {v : Int} {l : Nat} (grown : Grown s.cfg e.len l)
      (addr : AddrOk s.cfg (destAddr e d)) (next : lengthOk s.cfg (e.ip + 2) = true)
      (chan : s.channels[r.inp]? = some ch) (popped : ch.pop s.cfg = some (v, ch')) (free : ch.blocking = false) :
      Effect s r e (.inp d)
        ((s.setChannel r.inp ch').goOn r (({ e with len := l }.store (destAddr e d).toNat v).advance 2))
  /-- IN completes and suspends -/
  | inputYield {d : Operand} {ch ch' : Channel} {v : Int} {l : Nat} (grown : Grown s.cfg e.len l)
      (addr : AddrOk s.cfg (destAddr e d)) (next : lengthOk s.cfg (e.ip + 2) = true)
      (chan : s.channels[r.inp]? = some ch) (popped : ch.pop s.cfg = some (v, ch')) (blocks : ch.blocking = true) :
      Effect s r e (.inp d)
        ((s.setChannel r.inp ch').endRun r (({ e with len := l }.store (destAddr e d).toNat v).advance 2)
          .suspendedOnInput (.signal s.cfg.sigIn))
  /-- OUT completes and the run goes on -/
  | output {a : Operand} {ch ch' : Channel} {l : Nat} (grown : Grown s.cfg e.len l)
      (next : lengthOk s.cfg (e.ip + 2) = true) (chan : s.channels[r.out]? = some ch)
      (pushed : ch.push s.cfg (operandValue e a) = some ch') (free : ch.blocking = false) :
      Effect s r e (.out a) ((s.setChannel r.out ch').goOn r ({ e with len := l }.advance 2))
  /-- OUT completes and suspends -/
  | outputYield {a : Operand} {ch ch' : Channel} {l : Nat} (grown : Grown s.cfg e.len l)
      (next : lengthOk s.cfg (e.ip + 2) = true) (chan : s.channels[r.out]? = some ch)
      (pushed : ch.push s.cfg (operandValue e a) = some ch') (blocks : ch.blocking = true) :
      Effect s r e (.out a)
        ((s.setChannel r.out ch').endRun r ({ e with len := l }.advance 2) .suspendedOnOutput (.signal s.cfg.sigOut))
  /-- HLT ends the run -/
  | halt : Effect s r e .hlt (s.endRun r e .halted (.signal sigHalt))

theorem checkedResult_ok {c : Config} {op : Nat} {v x : Int} (h : checkedResult c op v = .ok x) :
    x = v ∧ Fits c.cellBits x := by
  simp only [checkedResult] at h
  split at h
  · cases h; exact ⟨rfl, ‹_›⟩
  · cases h

theorem fits_small {w : Nat} (hw : 64 ≤ w) {x : Int} (h0 : 0 ≤ x) (h1 : x ≤ 1) : Fits w x := by
  have hp : (2 : Nat) ^ 1 ≤ 2 ^ (w - 1) := Nat.pow_le_pow_right (by omega) (by omega)
  constructor <;> simp only [minValue, maxValue] <;> omega

/-- The literal word of operand `k` was within MEM_LIMIT, so `ip + k + 1` is a length within it. -/
theorem next_ok {c : Config} {e : Engine} {k : Nat} (h : AddrOk c ((e.ip + k : Nat) : Int)) :
    lengthOk c (e.ip + (k + 1)) = true := lengthOk_succ (by have := h.2; rwa [Int.toNat_natCast] at this)

section

variable {s s' : State} {r : Run} {e : Engine}

theorem aluOp_effect (ha : s.active = some (r, e)) {res : Config → Int → Int → Except EngineFault Int}
    (hres : ∀ x y z, res s.cfg x y = .ok z → 64 ≤ s.cfg.cellBits → Fits s.cfg.cellBits z) {a b d : Operand}
    {i : Instr} (hk : i.operands.length = 3) (hd : destination i = some d) (h : aluOp res a b d s = .next s') : Effect s r e i s' := by
  rcases decodeThen_cases ha (meets_aluOperands a b d s.cfg e) h with ⟨f, l, hl, ho⟩ | ⟨hc, h⟩
  · cases ho; exact .fault hl
  · have hg := grown_grownLen (c := s.cfg)
      (fun x hx => hc x ((meets_aluOperands a b d s.cfg e).sub x hx)) e.len
    split at h
    · cases h; exact .fault hg
    · rename_i x hx
      cases h
      exact .alu hk hd hg (hc _ (by simp [destChecks]))
        (next_ok (hc _ (by simp [destChecks]))) (hres _ _ _ hx)

theorem branch_effect {taken : Bool} {t : Int} {l : Nat} (hg : Grown s.cfg e.len l)
    (hn : lengthOk s.cfg (e.ip + 3) = true) {i : Instr} (hk : i.operands.length = 2)
    (h : branch s r { e with len := l } taken t = .next s') : Effect s r e i s' := by
  simp only [branch] at h
  split at h
  · split at h
    · cases h; exact .fault hg
    · rename_i n hn'
      obtain ⟨ht, rfl⟩ := addrOk_of_checkAddr hn'
      cases h
      exact .jump hk hg (lengthOk_mono (Nat.le_succ _) (lengthOk_succ ht.2))
  · cases h; exact .jump hk hg hn

theorem jump_effect (ha : s.active = some (r, e)) {c t : Operand} {i : Instr} (hk : i.operands.length = 2)
    {p : Int → Bool}
    (h : s.decodeThen (jumpOperands c t) (fun r e v => branch s r e (p v.1) v.2) = .next s') :
    Effect s r e i s' := by
  rcases decodeThen_cases ha (meets_jumpOperands c t s.cfg e) h with ⟨f, l, hl, ho⟩ | ⟨hc, h⟩
  · cases ho; exact .fault hl
  · exact branch_effect (grown_grownLen hc e.len) (next_ok (hc _ (by simp [readChecks]))) hk h

theorem inp_effect (ha : s.active = some (r, e)) {d : Operand} (h : execInp d s = .next s') :
    Effect s r e (.inp d) s' := by
  rcases decodeThen_cases ha (meets_targetOperand d s.cfg e) h with ⟨f, l, hl, ho⟩ | ⟨hc, h⟩
  · cases ho; exact .fault hl
  · have hg := grown_grownLen (c := s.cfg)
      (fun x hx => hc x ((meets_targetOperand d s.cfg e).sub x hx)) e.len
    have haddr := hc (destAddr e d) (by simp [destChecks])
    have hn := next_ok (hc ((e.ip + 1 : Nat) : Int) (by simp [destChecks]))
    split at h
    · cases h
    · rename_i ch hch
      split at h
      · split at h
        · cases h; exact .inputWait hg hch ‹_› ‹_›
        · cases h; exact .fault hg
      · rename_i v ch' hp
        simp only [yieldIf] at h
        split at h
        · cases h; exact .inputYield hg haddr hn hch hp ‹_›
        · cases h; exact .input hg haddr hn hch hp (by simpa using ‹¬ ch.blocking = true›)

theorem out_effect (ha : s.active = some (r, e)) {a : Operand} (h : execOut a s = .next s') :
    Effect s r e (.out a) s' := by
  rcases decodeThen_cases ha (meets_sourceOperand a s.cfg e) h with ⟨f, l, hl, ho⟩ | ⟨hc, h⟩
  · cases ho; exact .fault hl
  · have hg := grown_grownLen hc e.len
    have hn := next_ok (hc ((e.ip + 1 : Nat) : Int) (by simp [readChecks]))
    split at h
    · cases h
    · rename_i ch hch
      split at h
      · cases h; exact .fault hg
      · rename_i ch' hp
        simp only [yieldIf] at h
        split at h
        · cases h; exact .outputYield hg hn hch hp ‹_›
        · cases h; exact .output hg hn hch hp (by simpa using ‹¬ ch.blocking = true›)

/-- Every next state of an instruction is one of `Effect`'s. -/
theorem exec_effect (ha : s.active = some (r, e)) {i : Instr} (h : exec i s = .next s') : Effect s r e i s' := by
  cases i with
  | add a b d => exact aluOp_effect ha (fun _ _ _ hx _ => (checkedResult_ok hx).2) rfl rfl h
  | mul a b d => exact aluOp_effect ha (fun _ _ _ hx _ => (checkedResult_ok hx).2) rfl rfl h
  | lt a b d =>
    refine aluOp_effect (res := fun _ => ltResult) ha (fun x y z hx hw => ?_) rfl rfl h
    cases hx; exact fits_small hw (by split <;> omega) (by split <;> omega)
  | eq a b d =>
    refine aluOp_effect (res := fun _ => eqResult) ha (fun x y z hx hw => ?_) rfl rfl h
    cases hx; exact fits_small hw (by split <;> omega) (by split <;> omega)
  | inp d => exact inp_effect ha h
  | out a => exact out_effect ha h
  | jt c t => exact jump_effect ha rfl (p := fun v => decide (v ≠ 0)) h
  | jf c t => exact jump_effect ha rfl (p := fun v => decide (v = 0)) h
  | arb a =>
    rcases decodeThen_cases ha (meets_sourceOperand a s.cfg e) h with ⟨f, l, hl, ho⟩ | ⟨hc, h⟩
    · cases ho; exact .fault hl
    · have hg := grown_grownLen hc e.len
      split at h
      · cases h; exact .fault hg
      · rename_i x hx
        cases h
        exact .base hg (next_ok (hc _ (by simp [readChecks]))) (checkedResult_ok hx).2
  | hlt =>
    have h : execHlt s = .next s' := h
    rcases decodeThen_cases ha (meets_noOperand s.cfg e) h with ⟨f, l, hl, ho⟩ | ⟨-, h⟩
    · cases ho; exact .fault hl
    · cases h; exact .halt

/-- Outside a run no instruction executes (00_scope R9). -/
theorem exec_noRun (ha : s.active = none) (i : Instr) : exec i s = .fault .noRun := by
  cases i <;> first | exact decodeThen_noRun ha _ _ | (show execHlt s = _; exact decodeThen_noRun ha _ _)

/-- A next state means a run was in progress. -/
theorem active_of_exec {i : Instr} (h : exec i s = .next s') : ∃ r e, s.active = some (r, e) := by
  cases ha : s.active with
  | none => rw [exec_noRun ha] at h; cases h
  | some p => exact ⟨p.1, p.2, rfl⟩

end

/-! ## Fetch and step -/

/-- The fetch, in full: the CapacityFault of the fetch, the DecodeFault of the word, or the decoded instruction with
`len` grown to hold the word (30_encoding R50, R51). -/
theorem fetch_eq {s : State} {r : Run} {e : Engine} (ha : s.active = some (r, e)) :
    fetch s =
      if addressable s.cfg e.ip then
        match decodeWith (e.mem.read e.ip) (fun i => e.mem.read (e.ip + i)) with
        | .error sub => .stop (.next (s.takeFault r (e.grow e.ip) (.decode sub (e.mem.read e.ip))))
        | .ok i => .instr i (s.goOn r (e.grow e.ip))
      else .stop (.next (s.takeFault r e (.capacity e.ip))) := by
  have h0 : ¬ ((e.ip : Int) < 0) := by omega
  simp only [fetch, ha, memRead, checkAddr, h0, if_false, Int.toNat_natCast]
  by_cases h : addressable s.cfg e.ip = true
  · cases hd : decodeWith (e.mem.read e.ip) fun i => e.mem.read (e.ip + i) <;> simp [h, hd]
  · simp [h]

/-- A step with no run in progress is the host's turn. -/
theorem step_idle {s : State} (h : s.running = none) : step s = .next (hostTurn s) := by
  simp [step, h]

/-- What a step of a run can do: a fault of the fetch, or the decoded instruction executed. -/
theorem step_run_cases {s : State} {r : Run} {e : Engine} (ha : s.active = some (r, e)) {o : Out}
    (h : step s = o) :
    (∃ f l, Grown s.cfg e.len l ∧ o = .next (s.takeFault r { e with len := l } f)) ∨
    (∃ i, decodeWith (e.mem.read e.ip) (fun i => e.mem.read (e.ip + i)) = .ok i ∧
      Grown s.cfg e.len (e.grow e.ip).len ∧ exec i (s.goOn r (e.grow e.ip)) = o) := by
  have hr := (active_eq_some.1 ha).1
  simp only [step, hr, fetch_eq ha] at h
  by_cases hip : addressable s.cfg e.ip = true
  · have hg : Grown s.cfg e.len (e.grow e.ip).len := by
      rw [grow_len]; exact ⟨Nat.le_max_left .., fun hl => lengthOk_max hl (lengthOk_succ hip)⟩
    simp only [hip, if_true] at h
    cases hd : decodeWith (e.mem.read e.ip) fun i => e.mem.read (e.ip + i) with
    | error sub =>
      simp only [hd] at h
      exact .inl ⟨_, _, hg, h.symm⟩
    | ok i =>
      simp only [hd] at h
      exact .inr ⟨i, rfl, hg, h⟩
  · simp only [hip] at h
    exact .inl ⟨_, e.len, .refl .., h.symm⟩

end Sys2Proof.Machine
end

