-- ==== Sys2Proof/Laws/Completion.lean ====
section
/-! SUPPORT. What each shape of instruction does when every check of `Decode` passes. -/

namespace Sys2Proof.Machine

/-- An Engine with a new `ip`, `rb` and length has `Moved`. -/
theorem moved_self {e : Engine} (i : Instr) (l ip : Nat) (rb : Int) (h : l = grownLen e.len (checks e i)) :
    Moved e i ip rb { e with len := l, ip := ip, rb := rb } := ⟨fun _ => rfl, h, rfl, rfl, rfl⟩

/-- An Engine after its destination write and its advance has `Wrote`. -/
theorem wrote_store {e : Engine} (hw : e.mem.wf) {i : Instr} {d : Operand} {gs : List Int} {n : Nat} {x : Int}
    (hc : checks e i = gs ++ [destAddr e d]) :
    Wrote e i d x n (({ e with len := grownLen e.len gs }.store (destAddr e d).toNat x).advance n) := by
  refine ⟨fun a => ?_, ?_, rfl, rfl, rfl⟩
  · simpa using Memory.read_write hw _ a x
  · rw [hc, grownLen_append]; simp [grownLen]

/-- `goOn` after a channel was put back. -/
theorem continues_chan {s : State} {r : Run} {e₀ e : Engine} (h : s.active = some (r, e₀)) (c : Nat) (ch : Channel) :
    Continues s r e (s.channels.set c ch) ((s.setChannel c ch).goOn r e) :=
  let t := continues_goOn (s := s.setChannel c ch) h e
  ⟨t.1, t.2, t.3, t.4, t.5, t.6, t.7⟩

/-- `endRun` after a channel was put back. -/
theorem ends_chan {s : State} {r : Run} {e₀ e : Engine} (h : s.active = some (r, e₀)) (c : Nat) (ch : Channel) (st res) :
    Ends s r { e with status := st } (s.channels.set c ch) res ((s.setChannel c ch).endRun r e st res) :=
  let t := ends_endRun (s := s.setChannel c ch) h e st res
  ⟨t.1, t.2, t.3, t.4, t.5, t.6, t.7⟩

/-- The checks of a three-operand instruction end with its destination. -/
theorem alu_checks (e : Engine) (a b d : Operand) :
    readChecks e 1 a ++ readChecks e 2 b ++ destChecks e 3 d =
    (readChecks e 1 a ++ readChecks e 2 b ++ [((e.ip + 3 : Nat) : Int)]) ++ [destAddr e d] := by
  simp [destChecks]

/-- ADD, MUL, LT, EQ with a result in range. -/
theorem alu_ok {s : State} {r : Run} {e : Engine} (ha : s.active = some (r, e))
    {res : Config → Int → Int → Except EngineFault Int} {a b d : Operand} {x : Int}
    (hr : ∀ y ∈ readChecks e 1 a ++ readChecks e 2 b ++ destChecks e 3 d, AddrOk s.cfg y)
    (hx : res s.cfg (operandValue e a) (operandValue e b) = .ok x) :
    aluOp res a b d s = .next (s.goOn r (({ e with len := grownLen e.len (readChecks e 1 a ++ readChecks e 2 b ++ [((e.ip + 3 : Nat) : Int)]) }.store (destAddr e d).toNat x).advance 4)) := by
  rw [aluOp, decodeThen_ok ha (meets_aluOperands a b d s.cfg e) (firstFault_eq_none.2 hr)]
  simp only [hx]

/-- ADD, MUL with a result out of range. -/
theorem alu_bad {s : State} {r : Run} {e : Engine} (ha : s.active = some (r, e))
    {res : Config → Int → Int → Except EngineFault Int} {a b d : Operand} {f : EngineFault}
    (hr : ∀ y ∈ readChecks e 1 a ++ readChecks e 2 b ++ destChecks e 3 d, AddrOk s.cfg y)
    (hx : res s.cfg (operandValue e a) (operandValue e b) = .error f) :
    ∃ s', aluOp res a b d s = .next s' ∧ TakesFault s r e f s' := by
  rw [aluOp, decodeThen_ok ha (meets_aluOperands a b d s.cfg e) (firstFault_eq_none.2 hr)]
  simp only [hx]
  exact ⟨_, rfl, takesFault_takeFault ha (grown_grownLen (c := s.cfg) (fun y hy => hr y ((meets_aluOperands a b d s.cfg e).sub y hy)) _).le f⟩

/-- JT, JF resolve their condition and target. -/
theorem jump_ok {s : State} {r : Run} {e : Engine} (ha : s.active = some (r, e)) {c t : Operand}
   {k : Run → Engine → Int × Int → Out}
    (hr : ∀ y ∈ readChecks e 1 c ++ readChecks e 2 t, AddrOk s.cfg y) :
    s.decodeThen (jumpOperands c t) k = k r { e with len := grownLen e.len (readChecks e 1 c ++ readChecks e 2 t) } (operandValue e c, operandValue e t) :=
  decodeThen_ok ha (meets_jumpOperands c t s.cfg e) (firstFault_eq_none.2 hr)

/-- A taken jump to a target that fails its check (42_jumps R82). -/
theorem branch_bad {s : State} {r : Run} {e : Engine} (ha : s.active = some (r, e)) {l : Nat} (hl : e.len ≤ l) {t : Int} :
   (t < 0 → ∃ s', branch s r { e with len := l } true t = .next s' ∧ TakesFault s r e (.address t) s') ∧
    (0 ≤ t → addressable s.cfg t.toNat = false → ∃ s', branch s r { e with len := l } true t = .next s' ∧ TakesFault s r e (.capacity t) s') := by
  refine ⟨fun h => ⟨_, ?_, takesFault_takeFault ha hl _⟩, fun h h' => ⟨_, ?_, takesFault_takeFault ha hl _⟩⟩
  · simp [branch, checkAddr, h]
  · have : ¬ t < 0 := by omega
    simp [branch, checkAddr, this, h']

/-- IN resolves its destination. -/
theorem target_ok {s : State} {r : Run} {e : Engine} (ha : s.active = some (r, e)) {d : Operand}
    {k : Run → Engine → Nat → Out} (hr : ∀ y ∈ destChecks e 1 d, AddrOk s.cfg y) :
    s.decodeThen (targetOperand d) k = k r { e with len := grownLen e.len [((e.ip + 1 : Nat) : Int)] } (destAddr e d).toNat :=
  decodeThen_ok ha (meets_targetOperand d s.cfg e) (firstFault_eq_none.2 hr)

/-- OUT, ARB resolve their operand. -/
theorem source_ok {s : State} {r : Run} {e : Engine} (ha : s.active = some (r, e)) {a : Operand}
    {k : Run → Engine → Int → Out} (hr : ∀ y ∈ readChecks e 1 a, AddrOk s.cfg y) :
    s.decodeThen (sourceOperand a) k = k r { e with len := grownLen e.len (readChecks e 1 a) } (operandValue e a) :=
  decodeThen_ok ha (meets_sourceOperand a s.cfg e) (firstFault_eq_none.2 hr)

end Sys2Proof.Machine
end

