-- ==== Sys2Proof/Laws/Decode.lean ====
section
/-! SUPPORT. What the decoder can answer (30_encoding R42, R51), format by format. -/

namespace Sys2Proof.Machine

/-- A mode digit that names a mode is the digit of that mode. -/
theorem modeOfDigit_some {n : Nat} {m : Mode} (h : modeOfDigit n = some m) : n = m.digit := by
  simp only [modeOfDigit] at h
  split at h
  · cases h; assumption
  · split at h
    · cases h; assumption
    · split at h
      · cases h; assumption
      · cases h

/-- The digits that name no mode are those above 2 (30_encoding R55). -/
theorem modeOfDigit_none {n : Nat} : modeOfDigit n = none ↔ ¬ n ≤ 2 := by
  simp only [modeOfDigit]
  split
  · simp; omega
  · split
    · simp; omega
    · split
      · simp; omega
      · simp; omega

/-- A decoded F1 instruction: its literal word, and its mode as the whole of `modes`. -/
theorem decodeF1_ok {mk lit i modes} (h : decodeF1 mk modes lit = .ok i) : ∃ a : Mode, i = mk ⟨a, lit 1⟩ ∧ modes = a.digit := by
  simp only [decodeF1] at h
  split at h
  · cases h
  · rename_i a ha
    split at h
    · cases h
      refine ⟨a, rfl, ?_⟩
      have := modeOfDigit_some ha
      simp only [digit] at *
      norm_num at *
      omega
    · cases h

/-- A decoded F2 instruction. -/
theorem decodeF2_ok {mk lit i modes} (h : decodeF2 mk modes lit = .ok i) : ∃ a b : Mode, i = mk ⟨a, lit 1⟩ ⟨b, lit 2⟩ ∧ modes = a.digit + 10 * b.digit := by
  simp only [decodeF2] at h
  split at h
  · rename_i a b ha hb
    split at h
    · cases h
      refine ⟨a, b, rfl, ?_⟩
      have := modeOfDigit_some ha; have := modeOfDigit_some hb
      simp only [digit] at *
      norm_num at *
      omega
    · cases h
  · cases h

/-- A decoded F3 instruction. -/
theorem decodeF3_ok {mk lit i modes} (h : decodeF3 mk modes lit = .ok i) : ∃ a b d : Mode, i = mk ⟨a, lit 1⟩ ⟨b, lit 2⟩ ⟨d, lit 3⟩ ∧ modes = a.digit + 10 * (b.digit + 10 * d.digit) := by
  simp only [decodeF3] at h
  split at h
  · rename_i a b d ha hb hd
    split at h
    · cases h
      refine ⟨a, b, d, rfl, ?_⟩
      have := modeOfDigit_some ha; have := modeOfDigit_some hb; have := modeOfDigit_some hd
      simp only [digit] at *
      norm_num at *
      omega
    · cases h
  · cases h

/-- Every literal of a decoded instruction is one of the literal words behind its word. -/
theorem decodeWith_lit {w : Int} {lit : Nat → Int} {i : Instr} (h : decodeWith w lit = .ok i) :
    ∀ o ∈ i.operands, ∃ k, o.lit = lit k := by
  simp only [decodeWith] at h
  split at h
  · cases h
  · simp only [decodeOpcode] at h
    split at h
    case h_1 => obtain ⟨m₁, m₂, m₃, rfl, -⟩ := decodeF3_ok h; simp [Instr.operands]
    case h_2 => obtain ⟨m₁, m₂, m₃, rfl, -⟩ := decodeF3_ok h; simp [Instr.operands]
    case h_3 => obtain ⟨m₁, rfl, -⟩ := decodeF1_ok h; simp [Instr.operands]
    case h_4 => obtain ⟨m₁, rfl, -⟩ := decodeF1_ok h; simp [Instr.operands]
    case h_5 => obtain ⟨m₁, m₂, rfl, -⟩ := decodeF2_ok h; simp [Instr.operands]
    case h_6 => obtain ⟨m₁, m₂, rfl, -⟩ := decodeF2_ok h; simp [Instr.operands]
    case h_7 => obtain ⟨m₁, m₂, m₃, rfl, -⟩ := decodeF3_ok h; simp [Instr.operands]
    case h_8 => obtain ⟨m₁, m₂, m₃, rfl, -⟩ := decodeF3_ok h; simp [Instr.operands]
    case h_9 => obtain ⟨m₁, rfl, -⟩ := decodeF1_ok h; simp [Instr.operands]
    case h_10 => simp only [decodeF0] at h; split at h <;> cases h; simp [Instr.operands]
    case h_11 => cases h

end Sys2Proof.Machine
end

