-- ==== Sys2Proof/Laws/Frame.lean ====
section
/-! SUPPORT. What a step of a run leaves alone, read off `Effect`. -/

namespace Sys2Proof.Machine

/-- A step of a run takes a fault of the fetch or has an effect of the decoded instruction. -/
theorem step_effect {s s' : State} {r : Run} {e : Engine} (ha : s.active = some (r, e)) (h : step s = .next s') :
    (∃ f l, Grown s.cfg e.len l ∧ s' = s.takeFault r { e with len := l } f) ∨
    (∃ i, decodeWith (e.mem.read e.ip) (fun i => e.mem.read (e.ip + i)) = .ok i ∧
      Grown s.cfg e.len (e.grow e.ip).len ∧ Effect (s.goOn r (e.grow e.ip)) r (e.grow e.ip) i s') := by
  rcases step_run_cases ha h with ⟨f, l, hl, ho⟩ | ⟨i, hd, hg, hx⟩
  · cases ho; exact .inl ⟨f, l, hl, rfl⟩
  · exact .inr ⟨i, hd, hg, exec_effect (active_goOn ha _) hx⟩

/-- `goOn` leaves every other Engine alone. -/
theorem engine?_goOn_ne {s : State} {r : Run} {h : Nat} (hh : h ≠ r.engine) (e : Engine) :
    (s.goOn r e).engine? h = s.engine? h := engine?_setEngine_ne hh e

/-- `endRun` leaves every other Engine alone. -/
theorem engine?_endRun_ne {s : State} {r : Run} {h : Nat} (hh : h ≠ r.engine) (e : Engine) (st res) :
    (s.endRun r e st res).engine? h = s.engine? h := engine?_setEngine_ne hh _

/-- `goOn` puts the Engine under the run's handle. -/
theorem engine?_goOn_self {s : State} {r : Run} {e₀ : Engine} (ha : s.active = some (r, e₀)) (e : Engine) :
    (s.goOn r e).engine? r.engine = some e := engine?_setEngine_self (active_eq_some.1 ha).2 e

/-- `endRun` puts the Engine, with its new status, under the run's handle. -/
theorem engine?_endRun_self {s : State} {r : Run} {e₀ : Engine} (ha : s.active = some (r, e₀)) (e : Engine) (st res) :
    (s.endRun r e st res).engine? r.engine = some { e with status := st } :=
  engine?_setEngine_self (active_eq_some.1 ha).2 _

/-- The same after a channel was put back. -/
theorem engine?_setChannel_goOn {s : State} {r : Run} {e₀ : Engine} (ha : s.active = some (r, e₀)) (c : Nat) (ch : Channel) (e : Engine) :
    ((s.setChannel c ch).goOn r e).engine? r.engine = some e := engine?_goOn_self (s := s.setChannel c ch) ha e

/-- The same after a channel was put back. -/
theorem engine?_setChannel_endRun {s : State} {r : Run} {e₀ : Engine} (ha : s.active = some (r, e₀)) (c : Nat) (ch : Channel) (e : Engine) (st res) :
    ((s.setChannel c ch).endRun r e st res).engine? r.engine = some { e with status := st } := engine?_endRun_self (s := s.setChannel c ch) ha e st res

/-- An instruction leaves the parameters, the commands, the other Engines and the unbound channels alone. -/
theorem Effect.frame {s s' : State} {r : Run} {e : Engine} {i : Instr} (h : Effect s r e i s') :
    s'.cfg = s.cfg ∧ s'.commands = s.commands ∧ (∀ k, k ≠ r.engine → s'.engine? k = s.engine? k) ∧
    s'.channels.length = s.channels.length ∧
    (∀ c, c ≠ r.inp → c ≠ r.out → s'.channels[c]? = s.channels[c]?) := by
  cases h <;> refine ⟨rfl, rfl, fun k hk => ?_, by simp [State.setChannel], fun c h1 h2 => ?_⟩ <;>
    first
    | exact engine?_goOn_ne hk _
    | exact engine?_endRun_ne hk _ _ _
    | rfl
    | exact List.getElem?_set_ne (Ne.symm h1)
    | exact List.getElem?_set_ne (Ne.symm h2)

end Sys2Proof.Machine
end

