-- ==== Sys2Proof/Laws/Invariant.lean ====
section
/-! SUPPORT. How the operations keep the parts of `State.Inv`. -/

namespace Sys2Proof.Machine

/-- 0 is representable. -/
theorem Config.fits_zero {c : Config} (hc : c.Ok) : Fits c.cellBits 0 := fits_small hc.bits (by omega) (by omega)

/-- Every cell reads as a representable value. -/
theorem Engine.Ok.read {c : Config} {e : Engine} (hc : c.Ok) (h : e.Ok c) (a : Nat) : Fits c.cellBits (e.mem.read a) := by
  rcases Memory.read_mem_or_zero e.mem a with h0 | hm
  · rw [h0]; exact Config.fits_zero hc
  · exact h.cells _ hm

/-- Every operand value is representable. -/
theorem operandValue_fits {c : Config} (hc : c.Ok) {e : Engine} (h : e.Ok c) {o : Operand} (ho : Fits c.cellBits o.lit) :
    Fits c.cellBits (operandValue e o) := by
  cases o with | mk m v =>
  cases m
  · exact h.read hc _
  · exact ho
  · exact h.read hc _

/-- Growth within MEM_LIMIT keeps an Engine good. -/
theorem Engine.Ok.len {c : Config} {e : Engine} (h : e.Ok c) {l : Nat} (hl : Grown c e.len l) : Engine.Ok c { e with len := l } :=
  ⟨h.canonical, h.cells, fun p hp => Nat.lt_of_lt_of_le (h.grown p hp) hl.le, hl.ok h.limit, h.ipLimit, h.rbFits, h.faultIp⟩

/-- A new status keeps an Engine good, if a fault record names `ip`. -/
theorem Engine.Ok.status {c : Config} {e : Engine} (h : e.Ok c) (st : Status) (hf : ∀ f, st = .faulted f → f.ip = e.ip) :
    Engine.Ok c { e with status := st } :=
  ⟨h.canonical, h.cells, h.grown, h.limit, h.ipLimit, h.rbFits, hf⟩

/-- A new `ip` within MEM_LIMIT keeps a running Engine good. -/
theorem Engine.Ok.jump {c : Config} {e : Engine} (h : e.Ok c) (hs : e.status = .running) {n : Nat} (hn : lengthOk c n = true) :
    Engine.Ok c { e with ip := n } :=
  ⟨h.canonical, h.cells, h.grown, h.limit, hn, h.rbFits, fun f hf => by simp [hs] at hf⟩

/-- A representable new `rb` keeps an Engine good. -/
theorem Engine.Ok.base {c : Config} {e : Engine} (h : e.Ok c) {x : Int} (hx : Fits c.cellBits x) :
    Engine.Ok c { e with rb := x } :=
  ⟨h.canonical, h.cells, h.grown, h.limit, h.ipLimit, hx, h.faultIp⟩

/-- A checked write of a representable value keeps an Engine good. -/
theorem Engine.Ok.store {c : Config} {e : Engine} (h : e.Ok c) {a : Int} (ha : AddrOk c a) {x : Int} (hx : Fits c.cellBits x) :
    (e.store a.toNat x).Ok c where
  canonical := Memory.write_wf h.canonical ..
  cells p hp := by
    rcases Memory.mem_write h.canonical hp with ⟨rfl, -⟩ | ⟨hp, -⟩
    · exact hx
    · exact h.cells p hp
  grown p hp := by
    rw [store_len]
    rcases Memory.mem_write h.canonical hp with ⟨rfl, -⟩ | ⟨hp, -⟩
    · simp
    · have := h.grown p hp; omega
  limit := by rw [store_len]; exact lengthOk_max h.limit (lengthOk_succ ha.2)
  ipLimit := h.ipLimit
  rbFits := h.rbFits
  faultIp := h.faultIp

/-- An advance within MEM_LIMIT keeps a running Engine good. -/
theorem Engine.Ok.advance {c : Config} {e : Engine} (h : e.Ok c) (hs : e.status = .running) {n : Nat} (hn : lengthOk c (e.ip + n) = true) :
    (e.advance n).Ok c := h.jump hs hn

/-- Putting a good running Engine back keeps the invariant. -/
theorem State.Inv.goOn {s : State} (h : s.Inv) {r : Run} {e e' : Engine} (ha : s.active = some (r, e))
    (hok : e'.Ok s.cfg) (hs : e'.status = .running) : (s.goOn r e').Inv where
  cfg := h.cfg
  engines k x hx := by
    by_cases hk : k = r.engine
    · subst hk; rw [engine?_goOn_self ha] at hx; cases hx; exact hok
    · rw [engine?_goOn_ne hk] at hx; exact h.engines k x hx
  channels := h.channels
  run q hq := by
    have hqr : q = r := by
      have h2 : s.running = some q := hq
      rw [(active_eq_some.1 ha).1] at h2; cases h2; rfl
    subst hqr
    have := h.run q hq
    exact ⟨⟨e', engine?_goOn_self ha _, hs⟩, this.inp, this.out⟩
  fresh k x hx hst hr := by
    have hk : k ≠ r.engine := fun hk => hr r (active_eq_some.1 ha).1 hk.symm
    rw [engine?_goOn_ne hk] at hx
    exact h.fresh k x hx hst hr

/-- Ending the run with a good Engine keeps the invariant. -/
theorem State.Inv.endRun {s : State} (h : s.Inv) {r : Run} {e e' : Engine} (ha : s.active = some (r, e)) {st : Status}
    {res : Result} (hok : Engine.Ok s.cfg { e' with status := st }) (hs : st ≠ .running) : (s.endRun r e' st res).Inv where
  cfg := h.cfg
  engines k x hx := by
    by_cases hk : k = r.engine
    · subst hk; rw [engine?_endRun_self ha] at hx; cases hx; exact hok
    · rw [engine?_endRun_ne hk] at hx; exact h.engines k x hx
  channels := h.channels
  run q hq := by cases hq
  fresh k x hx hst _ := by
    by_cases hk : k = r.engine
    · subst hk; rw [engine?_endRun_self ha] at hx; cases hx; exact absurd hst hs
    · rw [engine?_endRun_ne hk] at hx
      refine h.fresh k x hx hst fun q hq => ?_
      rw [(active_eq_some.1 ha).1] at hq; cases hq; exact Ne.symm hk

/-- Putting a good channel back keeps the invariant. -/
theorem State.Inv.setChannel {s : State} (h : s.Inv) {c : Nat} {ch : Channel} (hc : ch.Ok s.cfg) : (s.setChannel c ch).Inv where
  cfg := h.cfg
  engines := h.engines
  channels x hx := by
    rcases List.mem_or_eq_of_mem_set hx with hx | rfl
    · exact h.channels x hx
    · exact hc
  run q hq := by
    have := h.run q hq
    exact ⟨this.live, by simpa using this.inp, by simpa using this.out⟩
  fresh := h.fresh

/-- The invariant does not look at the commands. -/
theorem State.Inv.commands {s : State} (h : s.Inv) (cs : List Command) : State.Inv { s with commands := cs } :=
  ⟨h.cfg, h.engines, h.channels, fun r hr => let t := h.run r hr; ⟨t.live, t.inp, t.out⟩, h.fresh⟩

/-- The invariant does not look at the results. -/
theorem State.Inv.report {s : State} (h : s.Inv) (r : Result) : (s.report r).Inv :=
  ⟨h.cfg, h.engines, h.channels, fun r hr => let t := h.run r hr; ⟨t.live, t.inp, t.out⟩, h.fresh⟩

/-- A run in progress has a live Engine that is Running. -/
theorem State.Inv.active {s : State} (h : s.Inv) {r : Run} (hr : s.running = some r) :
    ∃ e, s.active = some (r, e) ∧ e.status = .running := by
  obtain ⟨e, he, hs⟩ := (h.run r hr).live
  exact ⟨e, active_eq_some.2 ⟨hr, he⟩, hs⟩

/-- The Engines after one was appended. -/
theorem engine?_append {s : State} {e : Engine} {k : Nat} {x : Engine}
    (h : State.engine? { s with engines := s.engines ++ [some e] } k = some x) :
    s.engine? k = some x ∨ (k = s.engines.length ∧ x = e) := by
  simp only [State.engine?, List.getD, List.getElem?_append] at h
  split at h
  · exact .inl h
  · rename_i hk
    right
    rcases Nat.eq_or_lt_of_le (Nat.le_of_not_lt hk) with h1 | h1
    · subst h1; simp at h; exact ⟨rfl, h.symm⟩
    · rw [List.getElem?_eq_none (by simp; omega)] at h; cases h

/-- Parsed integers are representable. -/
theorem parseTokens_fits {w : Nat} {j : Nat} {ts : List (List Char)} {vs : List Int} (h : parseTokens w j ts = .ok vs) :
    ∀ v ∈ vs, Fits w v := by
  induction ts generalizing j vs with
  | nil => cases h; simp
  | cons t ts ih =>
    simp only [parseTokens] at h
    split at h
    · cases h
    · rename_i v hv
      split at h
      · cases h
      · rename_i us hus
        cases h
        intro x hx
        rcases List.mem_cons.1 hx with rfl | hx
        · simp only [parseToken] at hv
          split at hv
          · cases hv
          · split at hv
            · cases hv; assumption
            · cases hv
        · exact ih hus x hx

/-- A constructed Engine is good, with `ip` and `rb` 0 (70_reset_and_hazards R106). -/
theorem construct_ok {c : Config} (hc : c.Ok) {text : List Char} {e : Engine} (h : construct c text = .ok e) :
    e.Ok c ∧ e.ip = 0 ∧ e.rb = 0 := by
  simp only [construct] at h
  split at h
  · cases h
  · rename_i vs hvs
    split at h
    · cases h
      refine ⟨⟨Memory.ofWords_wf .., fun p hp => parseTokens_fits hvs _ (Memory.mem_ofWords hp).2.2.1, fun p hp => ?_, ‹_›, ?_, Config.fits_zero hc, nofun⟩, rfl, rfl⟩
      · have := (Memory.mem_ofWords hp).2.1; simpa [Engine.construct] using this
      · exact lengthOk_mono (Nat.zero_le _) ‹_›
    · cases h

end Sys2Proof.Machine
end

