-- ==== Sys2Proof/Laws/Lengths.lean ====
section
/-! SUPPORT. Forgetting the hidden length (10_state R22) commutes with every update. -/

namespace Sys2Proof.Machine

/-- Reading an Engine. -/
theorem engine?_forgetLen (s : State) (h : Nat) : s.forgetLen.engine? h = (s.engine? h).map Engine.forgetLen := by
  simp only [State.engine?, State.forgetLen, List.getD, List.getElem?_map]
  cases s.engines[h]? <;> rfl

/-- Putting an Engine back. -/
theorem forgetLen_setEngine (s : State) (h : Nat) (e : Engine) :
    (s.setEngine h e).forgetLen = s.forgetLen.setEngine h e.forgetLen := by
  simp [State.setEngine, State.forgetLen, List.map_set]

/-- `goOn`. -/
theorem forgetLen_goOn (s : State) (r : Run) (e : Engine) : (s.goOn r e).forgetLen = s.forgetLen.goOn r e.forgetLen :=
  forgetLen_setEngine ..

/-- `endRun`. -/
theorem forgetLen_endRun (s : State) (r : Run) (e : Engine) (st : Status) (res : Result) :
    (s.endRun r e st res).forgetLen = s.forgetLen.endRun r e.forgetLen st res := by
  have := forgetLen_setEngine s r.engine { e with status := st }
  simp only [State.endRun, State.report]
  exact congrArg (fun x : State => { x with running := none, results := s.results ++ [res] }) this

/-- Taking a fault. -/
theorem forgetLen_takeFault (s : State) (r : Run) (e : Engine) (f : EngineFault) :
    (s.takeFault r e f).forgetLen = s.forgetLen.takeFault r e.forgetLen f := forgetLen_endRun ..

/-- Putting a channel back. -/
theorem forgetLen_setChannel (s : State) (c : Nat) (ch : Channel) :
    (s.setChannel c ch).forgetLen = s.forgetLen.setChannel c ch := rfl

/-- Reporting a result. -/
theorem forgetLen_report (s : State) (r : Result) : (s.report r).forgetLen = s.forgetLen.report r := rfl

/-- Engines that are equal but for the length. -/
theorem forgetLen_eq {e e' : Engine} (h : e.forgetLen = e'.forgetLen) : ∃ l, e' = { e with len := l } := by
  cases e; cases e'; simp [Engine.forgetLen] at h; obtain ⟨h1, h2, h3, h4⟩ := h; subst h1 h2 h3 h4; exact ⟨_, rfl⟩

end Sys2Proof.Machine
end

