-- ==== Sys2Proof/Laws/PerInstr.lean ====
section
/-! SUPPORT. Facts stated of every instruction, one lemma per constructor. Family `LegalWord`: the word an instruction
encodes to is legal in the sense of 30_encoding R57 (a), and the encoding has the instruction's length (R44, R59). -/

namespace Sys2Proof.Laws.LegalWord

open Sys2Proof.Machine

/-- The encoding has `1 + count` cells; the word holds the opcode, modes 0 to 2 and nothing above them. -/
def Statement (i : Instr) : Prop :=
  (encode i).length = i.length ∧ operandCount i.opcode = some i.operands.length ∧ i.word % 100 = i.opcode ∧
    ModesOk i.word i.operands.length ∧ i.word / 100 / 10 ^ i.operands.length = 0

/-- One operand. -/
theorem one (op : Nat) (hop : op < 100) (a : Mode) :
    let w := op + 100 * (a.digit + 10 * 0)
    w % 100 = op ∧ ModesOk w 1 ∧ w / 100 / 10 ^ 1 = 0 := by
  have ha : a.digit ≤ 2 := by cases a <;> decide
  refine ⟨by omega, fun i hi => ?_, by omega⟩
  obtain rfl : i = 0 := by omega
  simp only [Sys2Proof.digit]; omega

/-- Two operands. -/
theorem two (op : Nat) (hop : op < 100) (a b : Mode) :
    let w := op + 100 * (a.digit + 10 * (b.digit + 10 * 0))
    w % 100 = op ∧ ModesOk w 2 ∧ w / 100 / 10 ^ 2 = 0 := by
  have ha : a.digit ≤ 2 := by cases a <;> decide
  have hb : b.digit ≤ 2 := by cases b <;> decide
  refine ⟨by omega, fun i hi => ?_, by omega⟩
  obtain rfl | rfl : i = 0 ∨ i = 1 := by omega
  all_goals simp only [Sys2Proof.digit]; omega

/-- Three operands. -/
theorem three (op : Nat) (hop : op < 100) (a b d : Mode) :
    let w := op + 100 * (a.digit + 10 * (b.digit + 10 * (d.digit + 10 * 0)))
    w % 100 = op ∧ ModesOk w 3 ∧ w / 100 / 10 ^ 3 = 0 := by
  have ha : a.digit ≤ 2 := by cases a <;> decide
  have hb : b.digit ≤ 2 := by cases b <;> decide
  have hd : d.digit ≤ 2 := by cases d <;> decide
  refine ⟨by omega, fun i hi => ?_, by omega⟩
  obtain rfl | rfl | rfl : i = 0 ∨ i = 1 ∨ i = 2 := by omega
  all_goals simp only [Sys2Proof.digit]; omega

theorem add (a b d : Operand) : Statement (.add a b d) :=
  ⟨rfl, rfl, three 1 (by decide) a.mode b.mode d.mode⟩

theorem mul (a b d : Operand) : Statement (.mul a b d) :=
  ⟨rfl, rfl, three 2 (by decide) a.mode b.mode d.mode⟩

theorem inp (d : Operand) : Statement (.inp d) := ⟨rfl, rfl, one 3 (by decide) d.mode⟩

theorem out (a : Operand) : Statement (.out a) := ⟨rfl, rfl, one 4 (by decide) a.mode⟩

theorem jt (c t : Operand) : Statement (.jt c t) := ⟨rfl, rfl, two 5 (by decide) c.mode t.mode⟩

theorem jf (c t : Operand) : Statement (.jf c t) := ⟨rfl, rfl, two 6 (by decide) c.mode t.mode⟩

theorem lt (a b d : Operand) : Statement (.lt a b d) :=
  ⟨rfl, rfl, three 7 (by decide) a.mode b.mode d.mode⟩

theorem eq (a b d : Operand) : Statement (.eq a b d) :=
  ⟨rfl, rfl, three 8 (by decide) a.mode b.mode d.mode⟩

theorem arb (a : Operand) : Statement (.arb a) := ⟨rfl, rfl, one 9 (by decide) a.mode⟩

theorem hlt : Statement .hlt := ⟨rfl, rfl, by decide, fun i hi => absurd hi (Nat.not_lt_zero i), by decide⟩

end Sys2Proof.Laws.LegalWord
end

