-- ==== Sys2Proof/Machine/Assembly.lean ====
section
/-! DEFINITION. The assembly notation of spec 30_encoding R58 to R60 as abstract syntax, and its encoding into cells.
The notation has labels, data words and five pseudo-instructions; nothing the machine does depends on it (log 15). -/

namespace Sys2Proof.Machine

/-- `n`: a signed decimal integer, or a label (R58). -/
inductive AsmRef where
  | num (n : Int)
  | label (name : List Char)
  deriving DecidableEq, Repr

/-- The operand forms; `n` may be a label in each (R58). -/
inductive AsmOperand where
  /-- `[n]`: position -/
  | pos (n : AsmRef)
  /-- `#n`: immediate -/
  | imm (n : AsmRef)
  /-- `[rb+n]`: relative -/
  | rel (n : AsmRef)
  /-- `[rb-n]`: relative, the literal is `-n` -/
  | relMinus (n : AsmRef)
  deriving DecidableEq, Repr

/-- The ten mnemonics of R58 and the five pseudo-instructions of R60. -/
inductive AsmOp where
  | add | mul | inp | out | jt | jf | lt | eq | arb | hlt
  | jmp | nop | mov | clr | neg
  deriving DecidableEq, Repr

/-- One item of a program: `name:`, `.word v1, v2, ...` or an instruction (R58). An entry of `.word` is an integer, and may
also be a label: R58 has labels usable wherever `n` is and leaves open whether `v` is one, so that is the model's DESIGN
CHOICE (log 15). -/
inductive AsmItem where
  | label (name : List Char)
  | word (vs : List AsmRef)
  | instr (op : AsmOp) (operands : List AsmOperand)
  deriving DecidableEq, Repr

/-- The instruction an operator and its operands stand for, pseudo-instructions expanded (R58, R60); `none` for a wrong
operand count. -/
def asmInstr : AsmOp → List Operand → Option Instr
  | .add, [a, b, d] => some (.add a b d)
  | .mul, [a, b, d] => some (.mul a b d)
  | .lt, [a, b, d] => some (.lt a b d)
  | .eq, [a, b, d] => some (.eq a b d)
  | .inp, [d] => some (.inp d)
  | .out, [a] => some (.out a)
  | .jt, [c, t] => some (.jt c t)
  | .jf, [c, t] => some (.jf c t)
  | .arb, [a] => some (.arb a)
  | .hlt, [] => some .hlt
  | .jmp, [t] => some (.jmp t)
  | .nop, [] => some .nop
  | .mov, [s, d] => some (.mov s d)
  | .clr, [d] => some (.clr d)
  | .neg, [s, d] => some (.neg s d)
  | _, _ => none

/-- How many cells an operator's instruction takes (R44, R60). -/
def AsmOp.cells : AsmOp → Nat
  | .add | .mul | .lt | .eq | .mov | .clr | .neg => 4
  | .jt | .jf | .jmp | .nop => 3
  | .inp | .out | .arb => 2
  | .hlt => 1

/-- How many cells an item takes. -/
def AsmItem.cells : AsmItem → Nat
  | .label _ => 0
  | .word vs => vs.length
  | .instr op _ => op.cells

/-- The labels of a program that starts at address `at_`: `name:` is the address of the next cell (R58). -/
def asmLabels (at_ : Nat) : List AsmItem → List (List Char × Nat)
  | [] => []
  | item :: items =>
    let rest := asmLabels (at_ + item.cells) items
    match item with
    | .label name => (name, at_) :: rest
    | .word _ | .instr _ _ => rest

/-- The integer a reference stands for (R58). Where one program defines a name more than once, the first definition counts:
the spec is silent there, and the DESIGN CHOICE is the model's (log 15). A name that is never defined has no integer. -/
def asmRef (labels : List (List Char × Nat)) : AsmRef → Option Int
  | .num n => some n
  | .label name => (labels.lookup name).map Int.ofNat

/-- The operand a form stands for (R58). -/
def asmOperand (labels : List (List Char × Nat)) (o : AsmOperand) : Option Operand :=
  match o with
  | .pos n => (asmRef labels n).map Operand.pos
  | .imm n => (asmRef labels n).map Operand.imm
  | .rel n => (asmRef labels n).map Operand.rel
  | .relMinus n => (asmRef labels n).map fun v => Operand.rel (-v)

/-- The cells of one item (R58, R59). -/
def asmItem (labels : List (List Char × Nat)) : AsmItem → Option (List Int)
  | .label _ => some []
  | .word vs => vs.mapM (asmRef labels)
  | .instr op os =>
    match os.mapM (asmOperand labels) with
    | none => none
    | some operands => (asmInstr op operands).map encode

/-- The cells of a program that starts at address 0, `none` if a label is never defined or an operand count is wrong:
the notation gives such a program no cells (log 15). -/
def assemble (items : List AsmItem) : Option (List Int) :=
  (items.mapM (asmItem (asmLabels 0 items))).map List.flatten

end Sys2Proof.Machine
end

