-- ==== Sys2Proof/Tests/Slice0.lean ====
section
/-! SUPPORT. Tests of the model, their expected results taken from spec 95_test_vectors and the rules' own examples, and
a witness for each statement's hypotheses (theorem `witness_<Name>`, one for each clause where a statement has
several). -/

namespace Sys2Proof.Tests

open Sys2Proof Sys2Proof.Machine

/-! ## The small states the tests start from -/

/-- A fresh Engine over these program words (70_reset_and_hazards R106). -/
def engine (words : List Int) : Engine := Engine.construct words

/-- A run of Engine 0 over channels 0 (input) and 1 (output). -/
def running (e : Engine) (inp out : Channel) (c : Config := .reference) : State :=
  { cfg := c, engines := [some e], channels := [inp, out], running := some ⟨0, 0, 1⟩, commands := [], results := [] }

/-- The host's turn, with one Engine, one channel and one command to come. -/
def idle (e : Engine) (ch : Channel) (cmd : Command) (c : Config := .reference) : State :=
  { cfg := c, engines := [some e], channels := [ch], running := none, commands := [cmd], results := [] }

/-- A non-blocking channel. -/
def nb (vs : List Int) : Channel := ⟨vs, false⟩

/-- A blocking channel. -/
def bl (vs : List Int) : Channel := ⟨vs, true⟩

/-- A configuration with MEM_LIMIT `l`. -/
def limited (l : Nat) : Config := { Config.reference with memLimit := some l }

/-- A configuration with CHAN_DEPTH 1. -/
def shallow : Config := { Config.reference with chanDepth := some 1 }

/-- One step of the program `words`. -/
def after (words : List Int) (inp out : Channel := nb []) : Option State := nextState? (step (running (engine words) inp out))

/-- The cell at `a` of Engine 0 after one step. -/
def cellAfter (words : List Int) (a : Nat) (inp : Channel := nb []) : Option Int :=
  (after words inp).bind fun s => (s.engine? 0).map fun e => e.mem.read a

/-- `ip` of Engine 0 after one step. -/
def ipAfter (words : List Int) : Option Nat := (after words).bind fun s => (s.engine? 0).map fun e => e.ip

/-- The results after one step. -/
def resultsAfter (words : List Int) (inp out : Channel := nb []) : Option (List Result) :=
  (after words inp out).map fun s => s.results

/-! ## WellFormed refuses a literal that is no W-bit value, in every operand -/

def bad : Operand := .imm 9223372036854775808
def good : Operand := .imm 9223372036854775807

theorem test_wf_limits : good.wf 64 = true ∧ bad.wf 64 = false ∧ (Operand.pos (-9223372036854775808)).wf 64 = true ∧
    (Operand.pos (-9223372036854775809)).wf 64 = false := by decide
theorem test_wf_add : (Instr.add good good good).wf 64 = true ∧ (Instr.add bad good good).wf 64 = false ∧
    (Instr.add good bad good).wf 64 = false ∧ (Instr.add good good bad).wf 64 = false := by decide
theorem test_wf_mul : (Instr.mul good good good).wf 64 = true ∧ (Instr.mul bad good good).wf 64 = false ∧
    (Instr.mul good bad good).wf 64 = false ∧ (Instr.mul good good bad).wf 64 = false := by decide
theorem test_wf_lt : (Instr.lt good good good).wf 64 = true ∧ (Instr.lt bad good good).wf 64 = false ∧
    (Instr.lt good bad good).wf 64 = false ∧ (Instr.lt good good bad).wf 64 = false := by decide
theorem test_wf_eq : (Instr.eq good good good).wf 64 = true ∧ (Instr.eq bad good good).wf 64 = false ∧
    (Instr.eq good bad good).wf 64 = false ∧ (Instr.eq good good bad).wf 64 = false := by decide
theorem test_wf_jumps : (Instr.jt good good).wf 64 = true ∧ (Instr.jt bad good).wf 64 = false ∧
    (Instr.jt good bad).wf 64 = false ∧ (Instr.jf good good).wf 64 = true ∧ (Instr.jf bad good).wf 64 = false ∧
    (Instr.jf good bad).wf 64 = false := by decide
theorem test_wf_one_operand : (Instr.inp bad).wf 64 = false ∧ (Instr.out bad).wf 64 = false ∧
    (Instr.arb bad).wf 64 = false ∧ (Instr.inp good).wf 64 = true ∧ (Instr.out good).wf 64 = true ∧
    (Instr.arb good).wf 64 = true ∧ Instr.hlt.wf 64 = true := by decide

/-! ## Decoding: a word of each instruction, written out from 30_encoding R42, R43 -/

/-- 1201: opcode 01, modes 2, 1, 0 (the example of R59). -/
theorem test_decode_add : decode [1201, 3, 7, 9] = .ok (.add (.rel 3) (.imm 7) (.pos 9)) := rfl
/-- 1002: opcode 02, modes 0, 1, 0 (W8). -/
theorem test_decode_mul : decode [1002, 20, 2, 21] = .ok (.mul (.pos 20) (.imm 2) (.pos 21)) := rfl
/-- 203: opcode 03, mode 2 (W7). -/
theorem test_decode_in : decode [203, 2] = .ok (.inp (.rel 2)) := rfl
/-- 104: opcode 04, mode 1 (R59). -/
theorem test_decode_out : decode [104, 42] = .ok (.out (.imm 42)) := rfl
/-- 1005: opcode 05, modes 0, 1 (P4). -/
theorem test_decode_jt : decode [1005, 22, 18] = .ok (.jt (.pos 22) (.imm 18)) := rfl
/-- 1206: opcode 06, modes 2, 1 (P6). -/
theorem test_decode_jf : decode [1206, 0, 22] = .ok (.jf (.rel 0) (.imm 22)) := rfl
/-- 107: opcode 07, modes 1, 0, 0 (P4). -/
theorem test_decode_lt : decode [107, 100, 21, 22] = .ok (.lt (.imm 100) (.pos 21) (.pos 22)) := rfl
/-- 20108: opcode 08, modes 1, 0, 2 (R42). -/
theorem test_decode_eq : decode [20108, -5, 6, 7] = .ok (.eq (.imm (-5)) (.pos 6) (.rel 7)) := rfl
/-- 209: opcode 09, mode 2 (vector R4). -/
theorem test_decode_arb : decode [209, 0] = .ok (.arb (.rel 0)) := rfl
theorem test_decode_hlt : decode [99] = .ok .hlt := rfl
/-- Vectors D-1 to D-10: what is no instruction. -/
theorem test_decode_rejects : decode [10] = .error .badOpcode ∧ decode [98] = .error .badOpcode ∧
    decode [301, 0, 0, 0] = .error .badMode ∧ decode [-1] = .error .negativeWord ∧ decode [199] = .error .extraModeDigits ∧
    decode [100001, 0, 0, 0] = .error .extraModeDigits ∧ decode [10004, 0] = .error .extraModeDigits :=
  ⟨rfl, rfl, rfl, rfl, rfl, rfl, rfl⟩

/-! ## One step of each instruction -/

/-- A1: the destination is also a source. -/
theorem test_add_reads_old_value : cellAfter [1, 0, 0, 0, 99] 0 = some 2 := by decide
/-- A3: MAX + 1. -/
theorem test_add_overflows :
    resultsAfter [1101, 9223372036854775807, 1, 0, 99] = some [.fault ⟨.overflow 1, 0⟩] := by decide
/-- M6: -(2^62) * 2 = MIN, exactly. -/
theorem test_mul_min :
    cellAfter [1102, -4611686018427387904, 2, 0, 99] 0 = some (-9223372036854775808) := by decide
/-- M8: MIN * -1. -/
theorem test_mul_overflows :
    resultsAfter [1102, -9223372036854775808, -1, 0, 99] = some [.fault ⟨.overflow 2, 0⟩] := by decide
/-- L4: signed; L2: the first operand is on the left. -/
theorem test_lt : cellAfter [1107, -1, 0, 0, 99] 0 = some 1 ∧ cellAfter [1107, 5, 3, 0, 99] 0 = some 0 := by decide
/-- E2, E3. -/
theorem test_eq : cellAfter [1108, 8, 9, 0, 99] 0 = some 0 ∧ cellAfter [8, 0, 0, 0, 99] 0 = some 1 := by decide
/-- J2, J3, J10. -/
theorem test_jt : ipAfter [1105, 0, 9] = some 3 ∧ ipAfter [1105, -1, 9] = some 9 ∧ ipAfter [5, 3, 4, 1, 0] = some 0 := by
  decide
/-- J7: a taken jump to -1; J8: not taken, the target is not looked at. -/
theorem test_jt_negative : resultsAfter [1105, 1, -1] = some [.fault ⟨.address (-1), 0⟩] ∧ ipAfter [1105, 0, -1] = some 3 := by
  decide
/-- J4, J6, J9. -/
theorem test_jf : ipAfter [1106, 0, 9] = some 9 ∧ ipAfter [1106, -9223372036854775808, 9] = some 3 ∧
    ipAfter [1006, 100, 5] = some 5 := by decide
/-- The second ARB of vector R4: read through the old relative base. -/
theorem test_arb_old_base :
    ((nextState? (exec (.arb (.rel 0)) (running { engine [109, 2, 209, 0, 99] with ip := 2, rb := 2 } (nb []) (nb [])))).bind
      fun s => (s.engine? 0).map fun e => (e.rb, e.ip)) = some (211, 4) := by decide
/-- IO1: a non-blocking empty channel; IO10: the destination is checked first. -/
theorem test_in_faults : resultsAfter [3, 0, 99] = some [.fault ⟨.channelUnderflow, 0⟩] ∧
    resultsAfter [3, -5, 99] = some [.fault ⟨.address (-5), 0⟩] := by decide
/-- IO3, IO5: YieldIn; mode 1 on a destination. -/
theorem test_in : resultsAfter [3, 0, 99] (bl [7]) = some [.signal 1] ∧ cellAfter [103, 5, 99] 5 (nb [4]) = some 4 := by
  decide
/-- IO6: YieldOut; D-12: an immediate -1 is no address. -/
theorem test_out : ((after [104, 42, 99] (nb []) (bl [])).map fun s => (s.channels, s.results)) =
    some ([nb [], bl [42]], [.signal 2]) ∧ (after [104, -1, 99]).map (fun s => s.channels) = some [nb [], nb [-1]] := by
  decide
/-- H1. -/
theorem test_hlt : ((after [99]).bind fun s => (s.engine? 0).map fun e => (e.status, e.ip, s.results)) =
    some (.halted, 0, [.signal 0]) := by decide
/-- D-7: modes are checked before operands are read. -/
theorem test_fault_priority :
    resultsAfter [30001, -1, 0, 0] = some [.fault ⟨.decode .badMode 30001, 0⟩] := by decide
/-- W1: a read beyond the program gives 0 and grows memory to 101 cells. -/
theorem test_growth : ((after [4, 100, 99]).bind fun s => (s.engine? 0).map fun e => (e.len, s.channels)) =
    some (101, [nb [], nb [0]]) := by decide

/-! ## Program text (T1 to T7) and host commands (T8 to T10) -/

theorem test_parse : parseText 64 [' ', '1', ' ', ',', ' ', '-', '2', ' ', '\n'] = .ok [1, -2] ∧
    parseText 64 ['+', '5'] = .ok [5] := ⟨rfl, rfl⟩
theorem test_parse_fails : parseText 64 ['1', ',', '2', ','] = .error 2 ∧ parseText 64 ['1', ' ', '2'] = .error 0 ∧
    parseText 64 [] = .error 0 := ⟨rfl, rfl, rfl⟩
theorem test_parse_limits : parseText 64 "9223372036854775808".toList = .error 0 ∧
    parseText 64 "-9223372036854775808".toList = .ok [-9223372036854775808] := ⟨rfl, rfl⟩
theorem test_pop_empty : (nextState? (step (idle (engine []) (nb []) (.pop 0)))).map (fun s => s.results) =
    some [.hostFault .channelUnderflow] := by decide
theorem test_read_mem : (nextState? (step (idle (engine [7]) (nb []) (.readMem 0 (-1))))).map (fun s => s.results) =
    some [.refused] := by decide
theorem test_pop_newest : (nextState? (step (idle (engine []) (nb [1, 2]) (.pop 0)))).map (fun s => (s.channels, s.results)) =
    some ([nb [1]], [.value 2]) := by decide

/-! ## The assembly notation: program P4 -/

def loop : List Char := ['l']
def done : List Char := ['d']

theorem test_assemble : assemble [
      .label loop,
      .instr .inp [.pos (.num 20)],
      .instr .mul [.pos (.num 20), .imm (.num 2), .pos (.num 21)],
      .instr .out [.pos (.num 21)],
      .instr .lt [.imm (.num 100), .pos (.num 21), .pos (.num 22)],
      .instr .jt [.pos (.num 22), .imm (.label done)],
      .instr .jmp [.imm (.label loop)],
      .label done, .instr .hlt []] =
    some [3, 20, 1002, 20, 2, 21, 4, 21, 107, 100, 21, 22, 1005, 22, 18, 1105, 1, 0, 99] := by decide

/-- The relative forms, with an integer and with a label (R58: "[rb-n] means literal -n"). -/
theorem test_assemble_relative : assemble [
      .instr .out [.rel (.num 3)], .label loop, .instr .out [.relMinus (.num 3)], .instr .out [.relMinus (.label loop)]] =
    some [204, 3, 204, -3, 204, -2] := by decide

/-! ## The opcode table's words -/

theorem test_table_words : decodeTableWord 8 99 = some .hlt ∧ decodeTableWord 8 4 = some (.out (.pos 0)) ∧
    decodeTableWord 128 (104 + 42 * 2 ^ 64) = some (.out (.imm 42)) ∧
    decodeTableWord 128 (104 + (2 ^ 64 - 1) * 2 ^ 64) = some (.out (.imm (-1))) ∧ decodeTableWord 8 0 = none := by decide
theorem test_placed_word : (nextState? (step (State.reset.withFetchWord 8 99))).map (fun s => s.results) =
    some [.signal 0] := by decide

/-! ## Witnesses: a state and operands that meet every hypothesis of each statement

`go` is a run of the Engine that holds the given words, over two empty non-blocking channels. -/

/-- A run over two empty non-blocking channels. -/
def go (words : List Int) (c : Config := .reference) : State := running (engine words) (nb []) (nb []) c

def theRun : Run := ⟨0, 0, 1⟩

theorem witness_DecodedCellsAreTheEncoding : decode [1201, 3, 7, 9, 99] = .ok (.add (.rel 3) (.imm 7) (.pos 9)) := rfl

/-- One word under each clause, at a boundary of its range. -/
theorem witness_EveryWordIsLegalOrHasOneSubkind :
    decodeWith (-1) (fun _ => 0) = .error .negativeWord ∧ decodeWith 0 (fun _ => 0) = .error .badOpcode ∧
    decodeWith 303 (fun _ => 0) = .error .badMode ∧ decodeWith 1003 (fun _ => 0) = .error .extraModeDigits ∧
    decodeWith 203 (fun _ => 0) = .ok (.inp (.rel 0)) := ⟨rfl, rfl, rfl, rfl, rfl⟩

theorem witness_EncodedCellsAreRepresentable : 64 ≤ 64 ∧ (Instr.add good (.pos (-9223372036854775808)) good).wf 64 = true ∧
    (1101 : Int) ∈ encode (.add (.imm 1) (.imm 2) (.pos 0)) := by decide

theorem witness_StepExecutesTheDecodedInstruction :
    (go [1101, 1, 2, 0]).active = some (theRun, engine [1101, 1, 2, 0]) ∧
    addressable (go [1101, 1, 2, 0]).cfg (engine [1101, 1, 2, 0]).ip = true ∧
    decodeWith ((engine [1101, 1, 2, 0]).mem.read 0) (fun k => (engine [1101, 1, 2, 0]).mem.read (0 + k)) =
      .ok (.add (.imm 1) (.imm 2) (.pos 0)) := ⟨rfl, rfl, rfl⟩

theorem witness_UndecodableWordTakesDecodeFault :
    (go [199]).active = some (theRun, engine [199]) ∧ addressable (go [199]).cfg (engine [199]).ip = true ∧
    decodeWith ((engine [199]).mem.read 0) (fun k => (engine [199]).mem.read (0 + k)) = .error .extraModeDigits :=
  ⟨rfl, rfl, rfl⟩

/-- `ip` = MEM_LIMIT, the first address that fails. -/
theorem witness_FetchBeyondTheLimitTakesCapacityFault :
    (running { engine [99] with ip := 1 } (nb []) (nb []) (limited 1)).active = some (theRun, { engine [99] with ip := 1 }) ∧
    addressable (limited 1) 1 = false := ⟨rfl, rfl⟩

/-- The literal word at MEM_LIMIT; and a destination below 0. -/
theorem witness_FirstFailingOperandCheckTakesTheFault :
    (go [4, 0] (limited 1)).active = some (theRun, engine [4, 0]) ∧
    firstFault (limited 1) (checks (engine [4, 0]) (.out (.pos 0))) = some (.capacity 1) ∧
    firstFault .reference (checks (engine [3, -5]) (.inp (.pos (-5)))) = some (.address (-5)) := by decide

theorem witness_AddWritesTheSum : (go []).active = some (theRun, engine []) ∧ (engine []).mem.wf ∧
    Ready .reference (engine []) (.add (.imm 9223372036854775806) (.imm 1) (.pos 0)) ∧
    Fits 64 (operandValue (engine []) (.imm 9223372036854775806) + operandValue (engine []) (.imm 1)) := by decide

theorem witness_MulWritesTheProduct : (go []).active = some (theRun, engine []) ∧ (engine []).mem.wf ∧
    Ready .reference (engine []) (.mul (.imm (-4611686018427387904)) (.imm 2) (.rel 0)) ∧
    Fits 64 (operandValue (engine []) (.imm (-4611686018427387904)) * operandValue (engine []) (.imm 2)) := by decide

/-- Both clauses: 3 < 4, and 3 ≤ 3. -/
theorem witness_LtWritesTheSignedComparison : (go []).active = some (theRun, engine []) ∧ (engine []).mem.wf ∧
    Ready .reference (engine []) (.lt (.imm 3) (.imm 4) (.imm 0)) ∧
    operandValue (engine []) (.imm 3) < operandValue (engine []) (.imm 4) ∧
    Ready .reference (engine []) (.lt (.imm 3) (.imm 3) (.imm 0)) ∧
    operandValue (engine []) (.imm 3) ≤ operandValue (engine []) (.imm 3) := by decide

/-- Both clauses. -/
theorem witness_EqWritesTheEquality : (go [8]).active = some (theRun, engine [8]) ∧ (engine [8]).mem.wf ∧
    Ready .reference (engine [8]) (.eq (.pos 0) (.imm 8) (.pos 0)) ∧
    operandValue (engine [8]) (.pos 0) = operandValue (engine [8]) (.imm 8) ∧
    Ready .reference (engine [8]) (.eq (.pos 0) (.imm 9) (.pos 0)) ∧
    operandValue (engine [8]) (.pos 0) ≠ operandValue (engine [8]) (.imm 9) := by decide

/-- The three clauses, each by one beyond the range (the Engine's `rb` is MAX). -/
theorem witness_UnrepresentableResultTakesOverflowFault :
    let e := { engine [] with rb := 9223372036854775807 }
    (running e (nb []) (nb [])).active = some (theRun, e) ∧
    Ready .reference e (.add good (.imm 1) (.pos 0)) ∧ ¬ Fits 64 (operandValue e good + operandValue e (.imm 1)) ∧
    Ready .reference e (.mul (.imm (-9223372036854775808)) (.imm (-1)) (.pos 0)) ∧
    ¬ Fits 64 (operandValue e (.imm (-9223372036854775808)) * operandValue e (.imm (-1))) ∧
    Ready .reference e (.arb (.imm 1)) ∧ ¬ Fits 64 (e.rb + operandValue e (.imm 1)) := by decide

/-- Both clauses; the target is the last address within MEM_LIMIT, and, not taken, below 0. -/
theorem witness_JtJumpsExactlyOnNonzero : (go [] (limited 10)).active = some (theRun, engine []) ∧
    Ready (limited 10) (engine []) (.jt (.imm (-1)) (.imm 9)) ∧ operandValue (engine []) (.imm (-1)) ≠ 0 ∧
    AddrOk (limited 10) (operandValue (engine []) (.imm 9)) ∧
    Ready (limited 10) (engine []) (.jt (.pos 9) (.imm (-1))) ∧ operandValue (engine []) (.pos 9) = 0 := by decide

theorem witness_JfJumpsExactlyOnZero : (go [] (limited 10)).active = some (theRun, engine []) ∧
    Ready (limited 10) (engine []) (.jf (.pos 9) (.imm 9)) ∧ operandValue (engine []) (.pos 9) = 0 ∧
    AddrOk (limited 10) (operandValue (engine []) (.imm 9)) ∧
    Ready (limited 10) (engine []) (.jf (.imm 1) (.imm (-1))) ∧ operandValue (engine []) (.imm 1) ≠ 0 := by decide

/-- JT to -1, the nearest negative target; JF to MEM_LIMIT, the nearest target beyond. -/
theorem witness_TakenJumpToABadTargetFaults : (go [] (limited 10)).active = some (theRun, engine []) ∧
    Ready (limited 10) (engine []) (.jt (.imm 1) (.imm (-1))) ∧
    (Instr.jt (.imm 1) (.imm (-1)) = .jt (.imm 1) (.imm (-1)) ∧ operandValue (engine []) (.imm 1) ≠ 0) ∧
    operandValue (engine []) (.imm (-1)) < 0 ∧
    Ready (limited 10) (engine []) (.jf (.imm 0) (.imm 10)) ∧
    (Instr.jf (.imm 0) (.imm 10) = .jf (.imm 0) (.imm 10) ∧ operandValue (engine []) (.imm 0) = 0) ∧
    0 ≤ operandValue (engine []) (.imm 10) ∧
    addressable (limited 10) (operandValue (engine []) (.imm 10)).toNat = false := by decide

theorem witness_ArbAddsToTheRelativeBase : (go []).active = some (theRun, engine []) ∧
    Ready .reference (engine []) (.arb (.imm (-9223372036854775808))) ∧
    Fits 64 ((engine []).rb + operandValue (engine []) (.imm (-9223372036854775808))) := by decide

theorem witness_InputStoresThePoppedValueAndGoesOn :
    (running (engine []) (nb [1, 2]) (nb [])).active = some (theRun, engine []) ∧ (engine []).mem.wf ∧
    Ready .reference (engine []) (.inp (.rel 7)) ∧ (running (engine []) (nb [1, 2]) (nb [])).channels[0]? = some (nb [1, 2]) ∧
    (nb [1, 2]).pop .reference = some (2, nb [1]) ∧ (nb [1, 2]).blocking = false := by decide

theorem witness_InputOnABlockingChannelSuspends :
    (running (engine []) (bl [7]) (nb [])).active = some (theRun, engine []) ∧ (engine []).mem.wf ∧
    Ready .reference (engine []) (.inp (.imm 0)) ∧ (running (engine []) (bl [7]) (nb [])).channels[0]? = some (bl [7]) ∧
    (bl [7]).pop .reference = some (7, bl []) ∧ (bl [7]).blocking = true := by decide

/-- Both clauses. -/
theorem witness_InputOnAnEmptyChannelWaitsOrUnderflows :
    (running (engine []) (bl []) (nb [])).active = some (theRun, engine []) ∧
    Ready .reference (engine []) (.inp (.pos 0)) ∧ (running (engine []) (bl []) (nb [])).channels[0]? = some (bl []) ∧
    (bl []).contents = [] ∧ (bl []).blocking = true ∧ (go []).active = some (theRun, engine []) ∧
    (go []).channels[0]? = some (nb []) ∧ (nb []).contents = [] ∧ (nb []).blocking = false := by decide

theorem witness_OutputAppendsAndGoesOn : (go []).active = some (theRun, engine []) ∧
    Ready .reference (engine []) (.out (.pos 100)) ∧ (go []).channels[1]? = some (nb []) ∧
    (nb []).isFull .reference = false ∧ (nb []).blocking = false := by decide

theorem witness_OutputOnABlockingChannelSuspends :
    (running (engine []) (nb []) (bl []) shallow).active = some (theRun, engine []) ∧
    Ready shallow (engine []) (.out (.imm 42)) ∧ (running (engine []) (nb []) (bl []) shallow).channels[1]? = some (bl []) ∧
    (bl []).isFull shallow = false ∧ (bl []).blocking = true := by decide

theorem witness_OutputOnAFullChannelOverflows :
    (running (engine []) (nb []) (nb [5]) shallow).active = some (theRun, engine []) ∧
    Ready shallow (engine []) (.out (.imm 42)) ∧ (running (engine []) (nb []) (nb [5]) shallow).channels[1]? = some (nb [5]) ∧
    shallow.chanDepth = some 1 ∧ 1 = (nb [5]).contents.length := by decide

theorem witness_HaltEndsTheRunWithSignalZero : (go [99]).active = some (theRun, engine [99]) := rfl

/-- The five clauses; NEG of -MAX, the least value whose negation is representable. -/
theorem witness_PseudoInstructionsDoWhatTheyName :
    let e := engine [0, -9223372036854775807]
    (running e (nb []) (nb [])).active = some (theRun, e) ∧ e.mem.wf ∧ 64 ≤ Config.reference.cellBits ∧
    Ready .reference e (.jmp (.pos 0)) ∧ AddrOk .reference (operandValue e (.pos 0)) ∧ Ready .reference e .nop ∧
    Ready .reference e (.mov (.pos 1) (.pos 2)) ∧ Fits 64 (operandValue e (.pos 1)) ∧ Ready .reference e (.clr (.pos 2)) ∧
    Ready .reference e (.neg (.pos 1) (.pos 2)) ∧ Fits 64 (-operandValue e (.pos 1)) := by decide

/-- Vector S1: the sum 99 is written where the next fetch reads it. -/
theorem witness_WrittenWordIsTheNextInstruction :
    (go [1101, 100, -1, 4, 0]).active = some (theRun, engine [1101, 100, -1, 4, 0]) ∧ (engine [1101, 100, -1, 4, 0]).mem.wf ∧
    Ready .reference (engine [1101, 100, -1, 4, 0]) (.add (.imm 100) (.imm (-1)) (.pos 4)) ∧
    Fits 64 (operandValue (engine [1101, 100, -1, 4, 0]) (.imm 100) + operandValue (engine [1101, 100, -1, 4, 0]) (.imm (-1))) ∧
    destAddr (engine [1101, 100, -1, 4, 0]) (.pos 4) = (((engine [1101, 100, -1, 4, 0]).ip + 4 : Nat) : Int) ∧
    decodeWith 99 (fun k => (engine [1101, 100, -1, 4, 0]).mem.read (0 + 4 + k)) = .ok .hlt := by
  refine ⟨by decide, by decide, by decide, by decide, by decide, rfl⟩

theorem witness_FaultsArePrecise : ∃ s' e', (go [199]).active = some (theRun, engine [199]) ∧
    (engine [199]).status = .running ∧ step (go [199]) = .next s' ∧ s'.engine? 0 = some e' ∧
    e'.status = .faulted ⟨.decode .extraModeDigits 199, 0⟩ := ⟨_, _, rfl, rfl, rfl, rfl, rfl⟩

theorem witness_OnlyArbWritesTheRelativeBase : ∃ s' e', (go [99]).active = some (theRun, engine [99]) ∧
    exec .hlt (go [99]) = .next s' ∧ s'.engine? 0 = some e' ∧ ∀ a, Instr.hlt ≠ .arb a :=
  ⟨_, _, rfl, rfl, rfl, fun _ => nofun⟩

/-- A cell next to the destination; and an instruction with no destination. -/
theorem witness_OnlyTheDestinationCellChanges : ∃ s' e' s'' e'', (go []).active = some (theRun, engine []) ∧
    (engine []).mem.wf ∧ exec (.add (.imm 1) (.imm 2) (.pos 5)) (go []) = .next s' ∧ s'.engine? 0 = some e' ∧
    (∀ d, destination (.add (.imm 1) (.imm 2) (.pos 5)) = some d → 6 ≠ (destAddr (engine []) d).toNat) ∧
    exec .hlt (go []) = .next s'' ∧ s''.engine? 0 = some e'' ∧
    ∀ d, destination .hlt = some d → 0 ≠ (destAddr (engine []) d).toNat :=
  ⟨_, _, _, _, rfl, by decide, rfl, rfl, by rintro d ⟨⟩; decide, rfl, rfl, nofun⟩

theorem witness_ARunTouchesOnlyItsEngineAndChannels : ∃ s', (go [104, 7]).active = some (theRun, engine [104, 7]) ∧
    step (go [104, 7]) = .next s' := ⟨_, rfl, rfl⟩

theorem witness_OnlyInputAndOutputTouchChannels : ∃ s' s'', (running (engine []) (nb [7]) (nb [])).active =
    some (theRun, engine []) ∧ exec (.inp (.pos 0)) (running (engine []) (nb [7]) (nb [])) = .next s' ∧
    exec (.out (.imm 7)) (running (engine []) (nb [7]) (nb [])) = .next s'' := ⟨_, _, rfl, rfl, rfl⟩

/-- An Input that completes, an Input that waits, and an Output: the ways to a suspension. -/
theorem witness_OnlyBlockingIoSuspends : ∃ s₁ e₁ s₂ e₂ s₃ e₃, (engine []).status = .running ∧ (engine []).mem.wf ∧
    (running (engine []) (bl [7]) (bl [])).active = some (theRun, engine []) ∧
    exec (.inp (.pos 0)) (running (engine []) (bl [7]) (bl [])) = .next s₁ ∧ s₁.engine? 0 = some e₁ ∧
    e₁.status = .suspendedOnInput ∧
    (running (engine []) (bl []) (bl [])).active = some (theRun, engine []) ∧
    exec (.inp (.pos 0)) (running (engine []) (bl []) (bl [])) = .next s₂ ∧ s₂.engine? 0 = some e₂ ∧
    e₂.status = .suspendedOnInput ∧
    exec (.out (.imm 1)) (running (engine []) (bl []) (bl [])) = .next s₃ ∧ s₃.engine? 0 = some e₃ ∧
    e₃.status = .suspendedOnOutput :=
  ⟨_, _, _, _, _, _, rfl, by decide, rfl, rfl, rfl, rfl, rfl, rfl, rfl, rfl, rfl, rfl, rfl⟩

/-- A three-cell form, taken and not taken, and Halt. -/
theorem witness_InstructionsAdvanceByTheirLength : ∃ s₁ e₁ s₂ e₂ s₃ e₃, (go []).active = some (theRun, engine []) ∧
    exec (.jt (.imm 1) (.imm 9)) (go []) = .next s₁ ∧ s₁.engine? 0 = some e₁ ∧ (∀ f, e₁.status ≠ .faulted f) ∧
    exec (.jt (.imm 0) (.imm 9)) (go []) = .next s₂ ∧ s₂.engine? 0 = some e₂ ∧ (∀ f, e₂.status ≠ .faulted f) ∧
    exec .hlt (go []) = .next s₃ ∧ s₃.engine? 0 = some e₃ ∧ (∀ f, e₃.status ≠ .faulted f) ∧
    ∀ d ch, Instr.jt (.imm 1) (.imm 9) = .inp d → (go []).channels[0]? = some ch → ch.contents ≠ [] :=
  ⟨_, _, _, _, _, _, rfl, rfl, rfl, fun _ => nofun, rfl, rfl, fun _ => nofun, rfl, rfl, fun _ => nofun, fun _ _ => nofun⟩

theorem witness_AStepOfARunFollowsTheTransitionTable : ∃ s', (go [99]).active = some (theRun, engine [99]) ∧
    (engine [99]).status = .running ∧ step (go [99]) = .next s' := ⟨_, rfl, rfl, rfl⟩

/-- States with one Engine and good parts meet the invariant. -/
theorem inv_of_parts {s : State} {e : Engine} (hc : s.cfg.Ok) (hes : s.engines = [some e]) (he : e.Ok s.cfg)
    (hch : ∀ ch ∈ s.channels, ch.Ok s.cfg)
    (hrun : ∀ r, s.running = some r → r.engine = 0 ∧ e.status = .running ∧ r.inp < s.channels.length ∧
      r.out < s.channels.length)
    (hfresh : e.status = .running → s.running = none → e.ip = 0 ∧ e.rb = 0) : s.Inv := by
  have key : ∀ h x, s.engine? h = some x → h = 0 ∧ x = e := by
    intro h x hx
    rw [State.engine?, hes] at hx
    cases h with
    | zero => simpa [eq_comm] using hx
    | succ n => simp at hx
  refine ⟨hc, fun h x hx => (key h x hx).2 ▸ he, hch, fun r hr => ?_, fun h x hx hs hn => ?_⟩
  · obtain ⟨h0, hs, hi, ho⟩ := hrun r hr
    exact ⟨⟨e, by rw [State.engine?, hes, h0]; rfl, hs⟩, hi, ho⟩
  · obtain ⟨rfl, rfl⟩ := key h x hx
    cases hr : s.running with
    | none => exact hfresh hs hr
    | some r => exact absurd (hrun r hr).1 (hn r hr)

theorem reference_ok : Config.reference.Ok :=
  ⟨by decide, by decide, by decide, by decide, nofun⟩

theorem empty_ok {c : Config} (b : Bool) : Channel.Ok c ⟨[], b⟩ := ⟨by simp, by simp⟩

/-- A Halted Engine after its Halt. -/
def halted : Engine := { engine [99] with status := .halted }

/-- An Engine suspended by an Input that completed. -/
def suspended : Engine := { engine [3, 0, 99] with ip := 2, status := .suspendedOnInput }

theorem suspended_ok : suspended.Ok .reference :=
  ⟨by decide, by decide, by decide, rfl, rfl, by decide, nofun⟩

theorem halted_ok : halted.Ok .reference := ⟨by decide, by decide, by decide, rfl, rfl, by decide, nofun⟩

theorem fresh_ok : (engine [99]).Ok .reference := ⟨by decide, by decide, by decide, rfl, rfl, by decide, nofun⟩

/-- A run in progress meets the invariant. -/
theorem go_inv : (go [99]).Inv :=
  inv_of_parts (e := engine [99]) reference_ok rfl fresh_ok
    (fun ch h => by rcases List.mem_pair.1 h with rfl | rfl <;> exact empty_ok _)
    (fun r h => by cases h; exact ⟨rfl, rfl, by decide, by decide⟩) nofun

/-- The host's turn meets the invariant. -/
theorem idle_inv {e : Engine} (he : e.Ok .reference) (hs : e.status ≠ .running) (cmd : Command) :
    (idle e (nb []) cmd).Inv :=
  inv_of_parts (e := e) reference_ok rfl he (fun ch h => by rw [List.mem_singleton.1 h]; exact empty_ok _)
    nofun fun h _ => absurd h hs

/-- Both clauses: a suspended Engine that is run, one that is discarded, and a Halted one that is run. -/
theorem witness_SuspendedEnginesWakeOnlyByRun : ∃ s₁ s₂ s₃, (idle suspended (nb []) (.run 0 0 0)).Inv ∧
    step (idle suspended (nb []) (.run 0 0 0)) = .next s₁ ∧
    (idle suspended (nb []) (.run 0 0 0)).engine? 0 = some suspended ∧ suspended.status = .suspendedOnInput ∧
    (idle suspended (nb []) (.discard 0)).Inv ∧ step (idle suspended (nb []) (.discard 0)) = .next s₂ ∧
    (idle halted (nb []) (.run 0 0 0)).Inv ∧ step (idle halted (nb []) (.run 0 0 0)) = .next s₃ ∧
    (idle halted (nb []) (.run 0 0 0)).engine? 0 = some halted ∧ halted.status = .halted :=
  ⟨_, _, _, idle_inv suspended_ok nofun _, rfl, rfl, rfl, idle_inv suspended_ok nofun _, rfl,
    idle_inv halted_ok nofun _, rfl, rfl, rfl⟩

theorem witness_ParametersAndBlockingFlagsAreFixed : ∃ s', step (running (engine [3, 0]) (bl [7]) (nb [])) = .next s' ∧
    (running (engine [3, 0]) (bl [7]) (nb [])).channels[0]? = some (bl [7]) := ⟨_, rfl, rfl⟩

theorem witness_EveryStepKeepsTheInvariant : ∃ s', (go [99]).Inv ∧ step (go [99]) = .next s' := ⟨_, go_inv, rfl⟩

theorem witness_TheMachineNeverStops : (go [99]).Inv := go_inv

/-- `JT #1, #0` at 0, in a memory of exactly its three cells. -/
theorem witness_ARunNeedNotEnd : (go [1105, 1, 0] (limited 3)).active = some (theRun, engine [1105, 1, 0]) ∧
    (engine [1105, 1, 0]).mem.read 0 = 1105 ∧ (engine [1105, 1, 0]).mem.read 1 = 1 ∧ (engine [1105, 1, 0]).mem.read 2 = 0 ∧
    addressable (limited 3) 2 = true := by decide

theorem witness_MemoryLengthIsUnobservable :
    (running (engine [99]) (nb []) (nb [])).forgetLen = (running { engine [99] with len := 50 } (nb []) (nb [])).forgetLen ∧
    running (engine [99]) (nb []) (nb []) ≠ running { engine [99] with len := 50 } (nb []) (nb []) := by decide

/-- The last literal word within MEM_LIMIT; a good destination and a bad one. -/
theorem witness_OperandsResolveByTheirModes : AddrOk (limited 2) (((engine []).ip + 1 : Nat) : Int) ∧
    ({ engine [] with len := 2 } : Engine) = { engine [] with len := max (engine []).len ((engine []).ip + 1 + 1) } ∧
    checkAddr (limited 2) (if Mode.position = .relative then (engine []).rb + 1 else 1) = .ok 1 ∧
    checkAddr (limited 2) (if Mode.relative = .relative then (engine []).rb + 2 else 2) = .error (.capacity 2) :=
  ⟨by decide, by decide, rfl, rfl⟩

/-- The last address within MEM_LIMIT. -/
theorem witness_MemWriteWritesOneCell : (engine [1, 2]).mem.wf ∧ Fits 64 9223372036854775807 ∧
    checkAddr (limited 10) 9 = .ok 9 := ⟨by decide, by decide, rfl⟩

theorem witness_EqualReadingsAreEqualMemories : Memory.wf [(3, 4)] ∧ (∀ a, Memory.read [(3, 4)] a = Memory.read [(3, 4)] a) :=
  ⟨by decide, fun _ => rfl⟩

/-- Both clauses: an access at `len`, and one at `len - 1`. -/
theorem witness_AccessesGrowMemoryWithZeros : Engine.Ok .reference (engine [99]) ∧ addressable .reference 1 = true ∧
    (engine [99]).len ≤ 1 ∧ addressable .reference 0 = true ∧ 0 < (engine [99]).len :=
  ⟨fresh_ok, rfl, by decide, rfl, by decide⟩

/-- The three clauses at their boundaries. -/
theorem witness_MemReadChecksReadsAndGrows : (-1 : Int) < 0 ∧
    ((0 : Int) ≤ 10 ∧ addressable (limited 10) (10 : Int).toNat = false) ∧
    ((0 : Int) ≤ 9 ∧ addressable (limited 10) (9 : Int).toNat = true) ∧ addressable (limited 10) (0 : Int).toNat = true := by
  decide

/-- Both orders, and the empty channel. -/
theorem witness_PopTakesFromTheConfiguredEnd : Config.reference.order = .lifo ∧ (nb [1, 2]).contents = [1] ++ [2] ∧
    ({ Config.reference with order := .fifo } : Config).order = .fifo ∧ (nb [1, 2]).contents = 1 :: [2] ∧
    (nb []).contents = [] := by decide

/-- As many integers as MEM_LIMIT allows. -/
theorem witness_NewConstructsAnEngineAtReset :
    (idle halted (nb []) (.new ['1', ',', '2']) (limited 2)).running = none ∧
    (idle halted (nb []) (.new ['1', ',', '2']) (limited 2)).commands = .new ['1', ',', '2'] :: [] ∧
    parseText 64 ['1', ',', '2'] = .ok [1, 2] ∧ lengthOk (limited 2) [1, 2].length = true := ⟨rfl, rfl, rfl, rfl⟩

/-- Every clause: a text that parses; the failing token last, first of two (the least index), and the only one; and one
integer more than MEM_LIMIT allows. -/
theorem witness_NewFailsWithoutAnEngine :
    (idle halted (nb []) (.new ['1', ',']) (limited 1)).running = none ∧
    (idle halted (nb []) (.new ['1', ',']) (limited 1)).commands = .new ['1', ','] :: [] ∧
    parseText 64 ['1', ','] = .error 1 ∧ parseText 64 ['x', ',', 'y'] = .error 0 ∧ parseText 64 [] = .error 0 ∧
    splitCommas ['1', ','] = [['1'], []] ∧ parseToken 64 [] = none ∧ parseToken 64 ['1'] = some 1 ∧
    (idle halted (nb []) (.new ['1', ',', '2']) (limited 1)).commands = .new ['1', ',', '2'] :: [] ∧
    parseText 64 ['1', ',', '2'] = .ok [1, 2] ∧ lengthOk (limited 1) [1, 2].length = false :=
  ⟨rfl, rfl, rfl, rfl, rfl, rfl, rfl, rfl, rfl, rfl, rfl⟩

/-- Three tokens, one of them empty. -/
theorem witness_ProgramTextSplitsAtItsCommas : [['1'], [], ['2', ' ']] ≠ ([] : List (List Char)) ∧
    ∀ t ∈ [['1'], [], ['2', ' ']], ',' ∉ t := by decide

/-- Both sides: a token that parses and one that does not. -/
theorem witness_TokensAreSignedDecimals : parseToken 64 [' ', '-', '0', '7', '\n'] = some (-7) ∧ Fits 64 (-7) ∧
    parseToken 64 ['+'] = none := ⟨rfl, by decide, rfl⟩

theorem witness_NewChannelIsEmptyWithItsFlag : (idle halted (nb []) (.newChannel true)).running = none ∧
    (idle halted (nb []) (.newChannel true)).commands = .newChannel true :: [] := ⟨rfl, rfl⟩

/-- Both clauses, at depth 1. -/
theorem witness_PushAppendsOrOverflows : (idle halted (nb []) (.push 0 7) shallow).running = none ∧
    (idle halted (nb []) (.push 0 7) shallow).commands = .push 0 7 :: [] ∧
    (idle halted (nb []) (.push 0 7) shallow).channels[0]? = some (nb []) ∧ Fits 64 7 ∧
    (nb []).isFull shallow = false ∧ (idle halted (nb [1]) (.push 0 7) shallow).channels[0]? = some (nb [1]) ∧
    (nb [1]).isFull shallow = true := by decide

/-- Both clauses. -/
theorem witness_PopCommandReturnsOrUnderflows : (idle halted (nb [1]) (.pop 0)).running = none ∧
    (idle halted (nb [1]) (.pop 0)).commands = .pop 0 :: [] ∧ (idle halted (nb [1]) (.pop 0)).channels[0]? = some (nb [1]) ∧
    (nb [1]).pop .reference = some (1, nb []) ∧ (idle halted (nb []) (.pop 0)).channels[0]? = some (nb []) ∧
    (nb []).contents = [] := by decide

/-- The three clauses: Halted, Faulted, and a fresh or suspended Engine; one channel in both roles (D25). -/
theorem witness_RunEntryResumesOrAnswersAtOnce :
    let faulted := { engine [199] with status := Status.faulted ⟨.decode .extraModeDigits 199, 0⟩ }
    (idle halted (nb []) (.run 0 0 0)).running = none ∧ (idle halted (nb []) (.run 0 0 0)).commands = .run 0 0 0 :: [] ∧
    0 < (idle halted (nb []) (.run 0 0 0)).channels.length ∧
    (idle halted (nb []) (.run 0 0 0)).engine? 0 = some halted ∧ halted.status = .halted ∧
    (idle faulted (nb []) (.run 0 0 0)).engine? 0 = some faulted ∧
    faulted.status = .faulted ⟨.decode .extraModeDigits 199, 0⟩ ∧
    (idle suspended (nb []) (.run 0 0 0)).engine? 0 = some suspended ∧ suspended.status = .suspendedOnInput ∧
    (idle (engine []) (nb []) (.run 0 0 0)).engine? 0 = some (engine []) ∧ (engine []).status = .running := by decide

/-- Both clauses: address 0 and address -1. -/
theorem witness_ReadMemObservesWithoutChange : (idle halted (nb []) (.readMem 0 0)).running = none ∧
    (idle halted (nb []) (.readMem 0 0)).commands = .readMem 0 0 :: [] ∧
    (idle halted (nb []) (.readMem 0 0)).engine? 0 = some halted ∧ (0 : Int) ≤ 0 ∧
    (idle halted (nb []) (.readMem 0 (-1))).commands = .readMem 0 (-1) :: [] ∧ (-1 : Int) < 0 := by decide

/-- Both parts. -/
theorem witness_ContentsListsAndDiscardRemoves : (idle halted (nb [1, 2]) (.contents 0)).running = none ∧
    (idle halted (nb [1, 2]) (.contents 0)).commands = .contents 0 :: [] ∧
    (idle halted (nb [1, 2]) (.contents 0)).channels[0]? = some (nb [1, 2]) ∧
    (idle halted (nb [1, 2]) (.discard 0)).running = none ∧
    (idle halted (nb [1, 2]) (.discard 0)).commands = .discard 0 :: [] ∧
    (idle halted (nb [1, 2]) (.discard 0)).engine? 0 = some halted := by decide

theorem witness_PlacedTableWordRunsNext : decodeTableWord 16 1105 = some (.jt (.imm 0) (.imm 0)) := by decide

end Sys2Proof.Tests
end

section
/-! PROOFS. Family 20_memory: what an access does to `len` and to the cells it grows (R28). -/

namespace Sys2Proof.Machine

/-- Cells from `len` on hold 0: a good Engine lists no value there (20_memory R28, "new cells default to zero"). -/
theorem Engine.Ok.read_eq_zero_of_len_le {c : Config} {e : Engine} (h : e.Ok c) {k : Nat} (hk : e.len ≤ k) :
    e.mem.read k = 0 :=
  Memory.read_unlisted fun p hp => by
    have := h.grown p hp
    omega

/-- A read within MEM_LIMIT gives the cell and the grown Engine (20_memory R29). -/
theorem memRead_eq_ok_grow {c : Config} (e : Engine) {a : Nat} (ha : addressable c a = true) :
    memRead c e a = .ok (e.mem.read a) (e.grow a) := by
  have hc : checkAddr c a = .ok a := checkAddr_eq_ok ⟨Int.natCast_nonneg a, ha⟩
  rw [memRead, hc]

/-- A write leaves every other cell as it was (20_memory R30). -/
theorem store_read_of_ne {e : Engine} (hw : e.mem.wf) {a k : Nat} (hk : k ≠ a) (v : Int) :
    (e.store a v).mem.read k = e.mem.read k := by
  rw [store_mem, Memory.read_write hw, if_neg hk]

/-- Settles O46: the Engine after the read is `e.grow a`, and `len` becomes the larger of itself and `a + 1`. -/
theorem accessesGrowMemoryWithZeros : Obligations.AccessesGrowMemoryWithZeros := by
  intro c e a v hok ha
  refine ⟨e.grow a, memRead_eq_ok_grow e ha, rfl, fun _ => rfl, fun hle => ?beyond, fun hlt => ?below⟩
  case beyond =>
    have hmax : max e.len (a + 1) = a + 1 := Nat.max_eq_right (by omega)
    refine ⟨by rw [grow_len, hmax], by rw [store_len, hmax], fun k hk _ => ?_, fun k hk hka => ?_⟩
    · rw [grow_mem, hok.read_eq_zero_of_len_le hk]
    · rw [store_read_of_ne hok.canonical (Nat.ne_of_lt hka), hok.read_eq_zero_of_len_le hk]
  case below =>
    have hmax : max e.len (a + 1) = e.len := Nat.max_eq_left hlt
    exact ⟨by rw [grow_len, hmax], by rw [store_len, hmax]⟩

end Sys2Proof.Machine
end

section
/-! PROOFS. Family 30_encoding: how operands resolve by their modes (R46 to R49), and how `ip` moves (R44). -/

namespace Sys2Proof.Machine

/-! ## Operands by their modes -/

/-- Growth changes the length alone (20_memory R28). -/
theorem grow_eq_max (e : Engine) (a : Nat) : e.grow a = { e with len := max e.len (a + 1) } := by
  rw [← grow_len]; rfl

/-- The access to a literal cell within MEM_LIMIT gives the literal and the grown Engine (R51). -/
theorem fetchLit_eq_ok_grow {c : Config} {e : Engine} {i : Nat} (h : AddrOk c ((e.ip + i : Nat) : Int)) (lit : Int) :
    fetchLit c e i lit = .ok lit (e.grow (e.ip + i)) := by
  rw [fetchLit, checkAddr_eq_ok h]; rfl

section

variable {c : Config} {e e₁ : Engine} {i : Nat} {lit : Int}

/-- A position operand is a read at its literal word (R46). -/
theorem readOperand_position (h : fetchLit c e i lit = .ok lit e₁) :
    readOperand c e i ⟨.position, lit⟩ = memRead c e₁ lit := by
  rw [readOperand, h]; rfl

/-- An immediate operand is its literal word (R47). -/
theorem readOperand_immediate (h : fetchLit c e i lit = .ok lit e₁) :
    readOperand c e i ⟨.immediate, lit⟩ = .ok lit e₁ := by
  rw [readOperand, h]; rfl

/-- A relative operand is a read at its literal word plus `rb` (R48). -/
theorem readOperand_relative (h : fetchLit c e i lit = .ok lit e₁) :
    readOperand c e i ⟨.relative, lit⟩ = memRead c e₁ (e₁.rb + lit) := by
  rw [readOperand, h]; rfl

/-- Only mode 2 adds `rb` to a destination; mode 1 acts as mode 0 (R49, 90_conflicts C2). -/
theorem destAddr_eq_ite (e : Engine) (m : Mode) (lit : Int) :
    destAddr e ⟨m, lit⟩ = if m = .relative then e.rb + lit else lit := by
  cases m <;> rfl

/-- A destination whose effective address passes its check resolves to it, with no further access (R49). -/
theorem destOperand_eq_ok {m : Mode} {n : Nat} (h : fetchLit c e i lit = .ok lit e₁)
    (hn : checkAddr c (destAddr e₁ ⟨m, lit⟩) = .ok n) : destOperand c e i ⟨m, lit⟩ = .ok n e₁ := by
  rw [destOperand, h]
  cases m <;> simp only [destAddr] at hn <;> simp only [Access.andThen, hn]

/-- A destination whose effective address fails its check raises that fault (R49). -/
theorem destOperand_eq_raise {m : Mode} {f : EngineFault} (h : fetchLit c e i lit = .ok lit e₁)
    (hf : checkAddr c (destAddr e₁ ⟨m, lit⟩) = .error f) : destOperand c e i ⟨m, lit⟩ = .raise f e₁ := by
  rw [destOperand, h]
  cases m <;> simp only [destAddr] at hf <;> simp only [Access.andThen, hf]

end

/-- Settles O43: the literal word's access gives the grown Engine, from which each mode goes its own way. -/
theorem operandsResolveByTheirModes : Obligations.OperandsResolveByTheirModes := by
  rintro c e _ i lit hlit rfl
  rw [← grow_eq_max]
  have hfetch := fetchLit_eq_ok_grow hlit lit
  refine ⟨readOperand_position hfetch, readOperand_immediate hfetch, readOperand_relative hfetch,
    fun m => ⟨fun n hn => ?_, fun f hf => ?_⟩⟩
  · exact destOperand_eq_ok hfetch ((destAddr_eq_ite ..).symm ▸ hn)
  · exact destOperand_eq_raise hfetch ((destAddr_eq_ite ..).symm ▸ hf)

/-! ## How `ip` moves -/

/-- Every instruction's encoding is legal and has its length (R44, R57, R59). -/
theorem legalWord (i : Instr) : Laws.LegalWord.Statement i := by
  cases i with
  | add a b d => exact Laws.LegalWord.add a b d
  | mul a b d => exact Laws.LegalWord.mul a b d
  | inp d => exact Laws.LegalWord.inp d
  | out a => exact Laws.LegalWord.out a
  | jt c t => exact Laws.LegalWord.jt c t
  | jf c t => exact Laws.LegalWord.jf c t
  | lt a b d => exact Laws.LegalWord.lt a b d
  | eq a b d => exact Laws.LegalWord.eq a b d
  | arb a => exact Laws.LegalWord.arb a
  | hlt => exact Laws.LegalWord.hlt

section

variable {s s' : State} {r : Run} {e e' : Engine}

/-- Taking a fault leaves the running Engine Faulted (60_exceptions R95). -/
theorem status_of_takeFault (ha : s.active = some (r, e)) {x : Engine} {f : EngineFault}
    (he : (s.takeFault r x f).engine? r.engine = some e') : e'.status = .faulted ⟨f, x.ip⟩ := by
  cases (engine?_endRun_self ha x _ _).symm.trans he
  rfl

variable (ha : s.active = some (r, e)) (he : s'.engine? r.engine = some e') (hf : ∀ f, e'.status ≠ .faulted f)
include ha he hf

/-- An instruction that is no jump and no Halt, when it completes, leaves `ip` past its cells (R44). -/
theorem Effect.ip_advance {i : Instr} (h : Effect s r e i s')
    (hin : ∀ d ch, i = .inp d → s.channels[r.inp]? = some ch → ch.contents ≠ [])
    (hjump : i.operands.length ≠ 2) (hhlt : i ≠ .hlt) : e'.ip = e.ip + i.length := by
  cases h with
  | fault => exact absurd (status_of_takeFault ha he) (hf _)
  | alu count =>
    cases (engine?_goOn_self ha _).symm.trans he
    simp [Instr.length, count]
  | jump count => exact absurd count hjump
  | base =>
    cases (engine?_goOn_self ha _).symm.trans he
    rfl
  | inputWait _ chan empty => exact absurd (pop_none.1 empty) (hin _ _ rfl chan)
  | input =>
    cases (engine?_setChannel_goOn ha _ _ _).symm.trans he
    rfl
  | inputYield =>
    cases (engine?_setChannel_endRun ha _ _ _ _ _).symm.trans he
    rfl
  | output =>
    cases (engine?_setChannel_goOn ha _ _ _).symm.trans he
    rfl
  | outputYield =>
    cases (engine?_setChannel_endRun ha _ _ _ _ _).symm.trans he
    rfl
  | halt => exact absurd rfl hhlt

/-- Halt leaves `ip` at its word (45_halt R91). -/
theorem Effect.ip_hlt (h : Effect s r e .hlt s') : e'.ip = e.ip := by
  cases h with
  | fault => exact absurd (status_of_takeFault ha he) (hf _)
  | alu count => cases count
  | jump count => cases count
  | halt =>
    cases (engine?_endRun_self ha _ _ _).symm.trans he
    rfl

/-- The end of a jump: at the target when taken, past the three cells when not (42_jumps R82). -/
theorem ip_branch {l : Nat} {taken : Bool} {t : Int} (h : branch s r { e with len := l } taken t = .next s') :
    (e'.ip : Int) = if taken then t else ((e.ip + 3 : Nat) : Int) := by
  cases taken with
  | false =>
    cases h
    cases (engine?_goOn_self ha _).symm.trans he
    rfl
  | true =>
    simp only [branch, if_true] at h
    cases hc : checkAddr s.cfg t with
    | error f =>
      rw [hc] at h
      cases h
      exact absurd (status_of_takeFault ha he) (hf _)
    | ok n =>
      rw [hc] at h
      cases h
      obtain ⟨haddr, rfl⟩ := addrOk_of_checkAddr hc
      cases (engine?_goOn_self ha _).symm.trans he
      exact Int.toNat_of_nonneg haddr.1

/-- JT and JF, when they complete, leave `ip` where their condition says (42_jumps R83, R84). -/
theorem ip_jump {c t : Operand} {p : Int → Bool}
    (h : s.decodeThen (jumpOperands c t) (fun r x v => branch s r x (p v.1) v.2) = .next s') :
    (e'.ip : Int) = if p (operandValue e c) then operandValue e t else ((e.ip + 3 : Nat) : Int) := by
  rcases decodeThen_cases ha (meets_jumpOperands c t s.cfg e) h with ⟨f, l, -, ho⟩ | ⟨-, hb⟩
  · cases ho
    exact absurd (status_of_takeFault ha he) (hf _)
  · exact ip_branch ha he hf hb

end

/-- Settles O34: the lengths are those of a legal word; `ip` is read off the instruction's effect, a
jump's off its branch. -/
theorem instructionsAdvanceByTheirLength : Obligations.InstructionsAdvanceByTheirLength := by
  intro s s' r e e' i ha h he hf hin
  obtain ⟨hlen, hcount, -⟩ := legalWord i
  refine ⟨hlen, ⟨_, hcount, rfl⟩, ?_⟩
  have heff := exec_effect ha h
  cases i with
  | jt c t => simpa [Instr.length, Instr.operands] using ip_jump ha he hf (p := fun v => decide (v ≠ 0)) h
  | jf c t => simpa [Instr.length, Instr.operands] using ip_jump ha he hf (p := fun v => decide (v = 0)) h
  | hlt => exact heff.ip_hlt ha he hf
  | add | mul | lt | eq | inp | out | arb => exact heff.ip_advance ha he hf hin (by simp [Instr.operands]) nofun

end Sys2Proof.Machine
end

section
/-! PROOFS. Family 40_engine: what suspends a run (R66). -/

namespace Sys2Proof.Machine

/-- Settles O32: of the effects of an instruction only `inputWait`, `inputYield` and `outputYield` give the Engine a
suspended status; the others keep Running or end it Halted or Faulted. -/
theorem onlyBlockingIoSuspends : Obligations.OnlyBlockingIoSuspends := by
  intro s s' r e e' i ha hrun hw h he
  cases exec_effect ha h with
  | fault => simp [status_of_takeFault ha he]
  | alu | jump | base =>
    cases (engine?_goOn_self ha _).symm.trans he
    simp [hrun]
  | input | output =>
    cases (engine?_setChannel_goOn ha _ _ _).symm.trans he
    simp [hrun]
  | halt =>
    cases (engine?_endRun_self ha _ _ _).symm.trans he
    exact ⟨nofun, nofun⟩
  | inputWait _ chan empty blocks =>
    cases (engine?_endRun_self ha _ _ _).symm.trans he
    exact ⟨fun _ => ⟨rfl, rfl, _, _, rfl, chan, blocks, .inr ⟨pop_none.1 empty, rfl, rfl, rfl⟩⟩, nofun⟩
  | inputYield _ _ _ chan popped blocks =>
    cases (engine?_setChannel_endRun ha _ _ _ _ _).symm.trans he
    exact ⟨fun _ => ⟨rfl, rfl, _, _, rfl, chan, blocks,
      .inl ⟨_, _, popped, rfl, rfl, fun a => Memory.read_write hw _ a _⟩⟩, nofun⟩
  | outputYield _ _ chan pushed blocks =>
    obtain ⟨-, rfl⟩ := push_some pushed
    cases (engine?_setChannel_endRun ha _ _ _ _ _).symm.trans he
    exact ⟨nofun, fun _ => ⟨rfl, rfl, _, _, rfl, chan, blocks, rfl, rfl, rfl⟩⟩

end Sys2Proof.Machine
end

section
/-! PROOFS. Family 60_exceptions: what becomes of an Engine that is not running (R104). -/

namespace Sys2Proof.Machine

/-! ## A step of a run, seen from another Engine -/

section

variable {s s' : State} {r : Run} {e : Engine}

/-- An instruction leaves the run in progress or ends it; it begins none (40_engine R65). -/
theorem Effect.running_eq {i : Instr} (h : Effect s r e i s') : s'.running = s.running ∨ s'.running = none := by
  cases h with
  | alu | jump | base | input | output => exact .inl rfl
  | fault | inputWait | inputYield | outputYield | halt => exact .inr rfl

variable (ha : s.active = some (r, e)) (h : step s = .next s')
include ha h

/-- A step of a run leaves every other Engine alone (10_state R25). -/
theorem engine?_step_ne {k : Nat} (hk : k ≠ r.engine) : s'.engine? k = s.engine? k := by
  rcases step_effect ha h with ⟨f, l, -, rfl⟩ | ⟨i, -, -, heff⟩
  · exact engine?_endRun_ne hk ..
  · obtain ⟨-, -, others, -⟩ := heff.frame
    exact (others k hk).trans (engine?_goOn_ne hk _)

/-- After a step of a run, a run in progress is still the same one. -/
theorem eq_of_running_step {q : Run} (hq : s'.running = some q) : q = r := by
  have hr := (active_eq_some.1 ha).1
  rcases step_effect ha h with ⟨f, l, -, rfl⟩ | ⟨i, -, -, heff⟩
  · cases hq
  · rcases heff.running_eq with hsame | hnone
    · exact Option.some.inj (hq.symm.trans (hsame.trans hr))
    · cases hq.symm.trans hnone

end

/-! ## A command of the host, seen from one Engine -/

/-- What a step can make of the live Engine `e` under the handle `h` that no run is bound to, when `cmd` is the host's
next command: `s'` is the state after the step. -/
inductive Fate (cmd : Option Command) (h : Nat) (e : Engine) (s' : State) : Prop where
  /-- nothing happens to it, and no run is bound to it -/
  | kept (engine : s'.engine? h = some e) (unbound : ∀ r, s'.running = some r → r.engine ≠ h)
  /-- it ceases to exist -/
  | discarded (command : cmd = some (.discard h)) (gone : s'.engine? h = none) (idle : s'.running = none)
  /-- a `RUN` of it, neither Halted nor Faulted, makes it Running -/
  | resumed (inp out : Nat) (command : cmd = some (.run h inp out)) (notHalted : e.status ≠ .halted)
      (notFaulted : ∀ f, e.status ≠ .faulted f) (engine : s'.engine? h = some { e with status := .running })
      (running : s'.running = some ⟨h, inp, out⟩)

/-- `DISCARD` leaves nothing under its handle (40_engine R71). -/
theorem engine?_set_none_self (s : State) (h : Nat) :
    State.engine? { s with engines := s.engines.set h none } h = none := by
  simp only [State.engine?, List.getD, List.getElem?_set_self']
  cases s.engines[h]? <;> rfl

/-- `DISCARD` leaves every other Engine alone (10_state R25). -/
theorem engine?_set_none_ne (s : State) {h k : Nat} (hk : k ≠ h) :
    State.engine? { s with engines := s.engines.set h none } k = s.engine? k := by
  simp [State.engine?, List.getD, List.getElem?_set_ne (Ne.symm hk)]

/-- A live Engine stays when another is appended. -/
theorem engine?_append_of_engine? {s : State} {h : Nat} {e : Engine} (he : s.engine? h = some e) (x : Engine) :
    State.engine? { s with engines := s.engines ++ [some x] } h = some e := by
  rw [← he]
  simp [State.engine?, List.getD, List.getElem?_append_left (lt_of_engine? he)]

section

variable {s : State} {h : Nat} {e : Engine}

/-- An Engine that is as it was, outside every run, is kept. -/
theorem Fate.of_idle {s' : State} {cmd : Option Command} (he : s'.engine? h = some e) (hr : s'.running = none) :
    Fate cmd h e s' :=
  .kept he fun r hq => by cases hr.symm.trans hq

variable (he : s.engine? h = some e) (hr : s.running = none)
include he hr

theorem fate_cmdNew (cmd : Option Command) (text : List Char) : Fate cmd h e (s.cmdNew text) := by
  unfold State.cmdNew
  split
  · exact .of_idle he hr
  · exact .of_idle (engine?_append_of_engine? he _) hr

theorem fate_cmdPush (cmd : Option Command) (c : Nat) (v : Int) : Fate cmd h e (s.cmdPush c v) := by
  unfold State.cmdPush
  split
  · exact .of_idle he hr
  · split
    · split <;> exact .of_idle he hr
    · exact .of_idle he hr

theorem fate_cmdPop (cmd : Option Command) (c : Nat) : Fate cmd h e (s.cmdPop c) := by
  unfold State.cmdPop
  split
  · exact .of_idle he hr
  · split <;> exact .of_idle he hr

theorem fate_cmdContents (cmd : Option Command) (c : Nat) : Fate cmd h e (s.cmdContents c) := by
  unfold State.cmdContents
  split <;> exact .of_idle he hr

theorem fate_cmdReadMem (cmd : Option Command) (k : Nat) (a : Int) : Fate cmd h e (s.cmdReadMem k a) := by
  unfold State.cmdReadMem
  split
  · exact .of_idle he hr
  · split <;> exact .of_idle he hr

/-- `DISCARD` touches the Engine it names only (R71; 10_state R25). -/
theorem fate_cmdDiscard (k : Nat) : Fate (some (.discard k)) h e (s.cmdDiscard k) := by
  unfold State.cmdDiscard
  split
  · exact .of_idle he hr
  · by_cases hk : h = k
    · subst hk
      exact .discarded rfl (engine?_set_none_self s h) hr
    · exact .of_idle ((engine?_set_none_ne s hk).trans he) hr

/-- `RUN` resumes the Engine it names, unless that is Halted or Faulted, and no other (40_engine R64). -/
theorem fate_cmdRun (k inp out : Nat) : Fate (some (.run k inp out)) h e (s.cmdRun k inp out) := by
  unfold State.cmdRun
  split
  case h_2 => exact .of_idle he hr
  case h_1 x _ _ hx _ _ =>
    by_cases hk : h = k
    · subst hk
      cases he.symm.trans hx
      have resumes (hh : e.status ≠ .halted) (hf : ∀ f, e.status ≠ .faulted f) :
          Fate (some (.run h inp out)) h e
            { s.setEngine h { e with status := .running } with running := some ⟨h, inp, out⟩ } :=
        .resumed inp out rfl hh hf (engine?_setEngine_self he _) rfl
      cases hs : e.status with
      | halted => exact .of_idle he hr
      | faulted f => exact .of_idle he hr
      | running | suspendedOnInput | suspendedOnOutput => exact resumes (by simp [hs]) (by simp [hs])
    · have others : (s.setEngine k { x with status := .running }).engine? h = some e :=
        (engine?_setEngine_ne hk _).trans he
      cases x.status with
      | halted => exact .of_idle he hr
      | faulted f => exact .of_idle he hr
      | running | suspendedOnInput | suspendedOnOutput =>
        exact .kept others fun r hq => by cases hq; exact Ne.symm hk

/-- What a command can make of an Engine. -/
theorem fate_perform (cmd : Command) : Fate (some cmd) h e (s.perform cmd) := by
  cases cmd with
  | new text => exact fate_cmdNew he hr _ text
  | newChannel b => exact .of_idle he hr
  | push c v => exact fate_cmdPush he hr _ c v
  | pop c => exact fate_cmdPop he hr _ c
  | contents c => exact fate_cmdContents he hr _ c
  | run k inp out => exact fate_cmdRun he hr k inp out
  | readMem k a => exact fate_cmdReadMem he hr _ k a
  | discard k => exact fate_cmdDiscard he hr k

/-- What the host's turn can make of an Engine. -/
theorem fate_hostTurn : Fate s.commands.head? h e (hostTurn s) := by
  unfold hostTurn
  cases s.commands with
  | nil => exact .of_idle he hr
  | cons cmd rest => exact fate_perform (s := { s with commands := rest }) he hr cmd

end

/-! ## Every step -/

/-- What a step can make of an Engine that is not Running: a run is never bound to it, so it is the host's turn that
changes it, if anything does (R104). -/
theorem fate_step {s s' : State} {h : Nat} {e : Engine} (hinv : s.Inv) (hstep : step s = .next s')
    (he : s.engine? h = some e) (hs : e.status ≠ .running) : Fate s.commands.head? h e s' := by
  cases hr : s.running with
  | none =>
    cases (step_idle hr).symm.trans hstep
    exact fate_hostTurn he hr
  | some r =>
    obtain ⟨x, ha, hx⟩ := hinv.active hr
    have hne : h ≠ r.engine := by
      rintro rfl
      cases he.symm.trans (active_eq_some.1 ha).2
      exact hs hx
    exact .kept ((engine?_step_ne ha hstep hne).trans he) fun q hq => by
      rw [eq_of_running_step ha hstep hq]
      exact hne.symm

/-- Settles O36: the fates of an Engine that is not Running are those the statement lists, and only a suspended one
can be resumed. -/
theorem suspendedEnginesWakeOnlyByRun : Obligations.SuspendedEnginesWakeOnlyByRun := by
  intro s s' h e hinv hstep he
  refine ⟨fun hsusp => ?suspended, fun hfinal => ?final⟩
  case suspended =>
    have hs : e.status ≠ .running := by rcases hsusp with hs | hs <;> simp [hs]
    cases fate_step hinv hstep he hs with
    | kept engine => exact .inl engine
    | discarded command gone => exact .inr (.inl ⟨gone, command⟩)
    | resumed inp out command _ _ engine running => exact .inr (.inr ⟨inp, out, command, engine, running⟩)
  case final =>
    have hs : e.status ≠ .running := by rcases hfinal with hs | ⟨f, hs⟩ <;> simp [hs]
    cases fate_step hinv hstep he hs with
    | kept engine unbound => exact ⟨.inl engine, unbound⟩
    | discarded command gone idle => exact ⟨.inr ⟨gone, command⟩, fun r hq => by cases idle.symm.trans hq⟩
    | resumed _ _ _ notHalted notFaulted =>
      rcases hfinal with hs | ⟨f, hs⟩
      · exact absurd hs notHalted
      · exact absurd hs (notFaulted f)

end Sys2Proof.Machine
end

section
/-! PROOFS. Family other: words and instructions (30_encoding R41 to R44, R51, R54 to R59). -/

namespace Sys2Proof.Machine

/-! ## Decoding an encoding -/

@[simp] theorem modeOfDigit_digit (m : Mode) : modeOfDigit m.digit = some m := by cases m <;> rfl

theorem Mode.digit_le_two (m : Mode) : m.digit ≤ 2 := by cases m <;> decide

/-- The first mode digit is operand 1's (R42). -/
theorem operandMode_modeDigits_one (o : Operand) (os : List Operand) :
    operandMode (modeDigits (o :: os)) 1 = some o.mode := by
  have hm := Mode.digit_le_two o.mode
  have hd : Sys2Proof.digit (modeDigits (o :: os)) (1 - 1) = o.mode.digit := by
    simp only [Sys2Proof.digit, modeDigits]
    omega
  rw [operandMode, hd, modeOfDigit_digit]

/-- The mode digits above the first are those of the other operands (R42). -/
theorem operandMode_modeDigits_succ (o : Operand) (os : List Operand) (i : Nat) :
    operandMode (modeDigits (o :: os)) (i + 2) = operandMode (modeDigits os) (i + 1) := by
  have hm := Mode.digit_le_two o.mode
  have htail : modeDigits (o :: os) / 10 = modeDigits os := by simp only [modeDigits]; omega
  have hd : Sys2Proof.digit (modeDigits (o :: os)) (i + 1) = Sys2Proof.digit (modeDigits os) i := by
    simp only [Sys2Proof.digit]
    rw [Nat.pow_succ', ← Nat.div_div_eq_div_mul, htail]
  exact congrArg modeOfDigit hd

/-- `n` operands have `n` mode digits. -/
theorem modeDigits_lt (os : List Operand) : modeDigits os < 10 ^ os.length := by
  induction os with
  | nil => simp [modeDigits]
  | cons o os ih =>
    have := Mode.digit_le_two o.mode
    rw [modeDigits, List.length_cons, Nat.pow_succ']
    omega

theorem decodeF1_modeDigits (mk : Operand → Instr) (a : Operand) (lit : Nat → Int) :
    decodeF1 mk (modeDigits [a]) lit = .ok (mk ⟨a.mode, lit 1⟩) := by
  have hlt : modeDigits [a] < 10 := by simpa using modeDigits_lt [a]
  simp only [decodeF1, operandMode_modeDigits_one, Nat.div_eq_of_lt hlt, if_true]

theorem decodeF2_modeDigits (mk : Operand → Operand → Instr) (a b : Operand) (lit : Nat → Int) :
    decodeF2 mk (modeDigits [a, b]) lit = .ok (mk ⟨a.mode, lit 1⟩ ⟨b.mode, lit 2⟩) := by
  have hlt : modeDigits [a, b] < 100 := by simpa using modeDigits_lt [a, b]
  simp only [decodeF2, operandMode_modeDigits_one, operandMode_modeDigits_succ _ _ 0, Nat.zero_add,
    Nat.div_eq_of_lt hlt, if_true]

theorem decodeF3_modeDigits (mk : Operand → Operand → Operand → Instr) (a b d : Operand) (lit : Nat → Int) :
    decodeF3 mk (modeDigits [a, b, d]) lit = .ok (mk ⟨a.mode, lit 1⟩ ⟨b.mode, lit 2⟩ ⟨d.mode, lit 3⟩) := by
  have hlt : modeDigits [a, b, d] < 1000 := by simpa using modeDigits_lt [a, b, d]
  simp only [decodeF3, operandMode_modeDigits_one, operandMode_modeDigits_succ _ _ 0,
    operandMode_modeDigits_succ _ _ 1, Nat.zero_add, Nat.reduceAdd, Nat.div_eq_of_lt hlt, if_true]

theorem opcode_lt_hundred (i : Instr) : i.opcode < 100 := by cases i <;> simp [Instr.opcode]

/-- An instruction's word is split into its opcode and its mode digits (R42). -/
theorem decodeWith_word (i : Instr) (lit : Nat → Int) :
    decodeWith i.word lit = decodeOpcode i.opcode (modeDigits i.operands) lit := by
  have hop := opcode_lt_hundred i
  have hneg : ¬ ((i.word : Int) < 0) := by omega
  have hmod : i.word % 100 = i.opcode := by simp only [Instr.word]; omega
  have hdiv : i.word / 100 = modeDigits i.operands := by simp only [Instr.word]; omega
  rw [decodeWith, if_neg hneg, Int.toNat_natCast, hmod, hdiv]

/-- Opcode, mode digits and literal words of an instruction decode to it, format by format. -/
theorem decodeOpcode_eq_ok {i : Instr} {lit : Nat → Int}
    (hlit : ∀ k o, i.operands[k]? = some o → lit (k + 1) = o.lit) :
    decodeOpcode i.opcode (modeDigits i.operands) lit = .ok i := by
  cases i with
  | add a b d | mul a b d | lt a b d | eq a b d =>
    refine (decodeF3_modeDigits _ a b d lit).trans ?_
    rw [hlit 0 a rfl, hlit 1 b rfl, hlit 2 d rfl]
  | jt a b | jf a b =>
    refine (decodeF2_modeDigits _ a b lit).trans ?_
    rw [hlit 0 a rfl, hlit 1 b rfl]
  | inp a | out a | arb a =>
    refine (decodeF1_modeDigits _ a lit).trans ?_
    rw [hlit 0 a rfl]
  | hlt => rfl

/-- Settles O2: the word gives back opcode and mode digits, and the cells behind it are the literal words. -/
theorem decodeOfEncodeIsIdentity : Obligations.DecodeOfEncodeIsIdentity := by
  intro i rest
  refine (decodeWith_word i _).trans (decodeOpcode_eq_ok fun k o hk => ?_)
  obtain ⟨hlen, rfl⟩ := List.getElem?_eq_some_iff.1 hk
  simp [encode, List.getD, List.getElem?_append, hlen]

/-! ## Encoding what was decoded -/

/-- `modes` and the literal words are those of the instruction's operands. -/
def SpelledBy (modes : Nat) (lit : Nat → Int) (i : Instr) : Prop :=
  modes = modeDigits i.operands ∧ i.operands.map (·.lit) = (List.range i.operands.length).map fun k => lit (k + 1)

/-- The opcode, the mode digits and the literal words of a decoded instruction are those it was decoded from. -/
theorem decodeOpcode_ok {op modes : Nat} {lit : Nat → Int} {i : Instr} (h : decodeOpcode op modes lit = .ok i) :
    op = i.opcode ∧ SpelledBy modes lit i := by
  simp only [decodeOpcode] at h
  split at h
  case h_1 | h_2 | h_7 | h_8 => obtain ⟨a, b, d, rfl, rfl⟩ := decodeF3_ok h; exact ⟨rfl, rfl, rfl⟩
  case h_3 | h_4 | h_9 => obtain ⟨a, rfl, rfl⟩ := decodeF1_ok h; exact ⟨rfl, rfl, rfl⟩
  case h_5 | h_6 => obtain ⟨a, b, rfl, rfl⟩ := decodeF2_ok h; exact ⟨rfl, rfl, rfl⟩
  case h_10 =>
    rw [decodeF0] at h
    split at h <;> cases h
    exact ⟨rfl, ‹_›, rfl⟩
  case h_11 => cases h

/-- A word decodes to `i` only if it is the word of `i`, with the literal words of `i` behind it. -/
theorem decodeWith_ok {w : Int} {lit : Nat → Int} {i : Instr} (h : decodeWith w lit = .ok i) :
    w = i.word ∧ i.operands.map (·.lit) = (List.range i.operands.length).map fun k => lit (k + 1) := by
  rw [decodeWith] at h
  split at h
  · cases h
  · obtain ⟨hop, hmodes, hlits⟩ := decodeOpcode_ok h
    refine ⟨?_, hlits⟩
    simp only [Instr.word]
    omega

/-- Settles O3: the first cell is the word of `i` and the cells behind it are its literal words. -/
theorem decodedCellsAreTheEncoding : Obligations.DecodedCellsAreTheEncoding := by
  intro cells i h
  obtain ⟨hword, hlits⟩ := decodeWith_ok h
  rw [encode, ← hword, hlits, Instr.length, Nat.add_comm 1, List.range_succ_eq_map, List.map_cons, List.map_map]
  rfl

/-! ## The verdict on a word -/

/-- What the mode digits of the word `w` say of an instruction with `n` operands (R55, R56). -/
inductive FormatVerdict (w n : Nat) : Except DecodeSubkind Instr → Prop where
  | badMode (modes : ¬ ModesOk w n) : FormatVerdict w n (.error .badMode)
  | extra (modes : ModesOk w n) (above : w / 100 / 10 ^ n ≠ 0) : FormatVerdict w n (.error .extraModeDigits)
  | legal (i : Instr) (modes : ModesOk w n) (above : w / 100 / 10 ^ n = 0) : FormatVerdict w n (.ok i)

/-- What the decoder says of a word, in the order of its checks (R51). -/
inductive Verdict (w : Int) : Except DecodeSubkind Instr → Prop where
  | negative (neg : w < 0) : Verdict w (.error .negativeWord)
  | badOpcode (nonneg : 0 ≤ w) (opcode : operandCount (w.toNat % 100) = none) : Verdict w (.error .badOpcode)
  | format (nonneg : 0 ≤ w) (n : Nat) (opcode : operandCount (w.toNat % 100) = some n)
      {x : Except DecodeSubkind Instr} (verdict : FormatVerdict w.toNat n x) : Verdict w x

/-- Operand `i`'s mode digit is digit `1 + i` of the word (R42). -/
theorem operandMode_word (w i : Nat) : operandMode (w / 100) (i + 1) = modeOfDigit (digit w (2 + i)) := by
  rw [operandMode, digit, digit, Nat.pow_add, ← Nat.div_div_eq_div_mul]
  rfl

/-- An operand whose mode digit is 0, 1 or 2 has a mode (R45). -/
theorem exists_operandMode {w i : Nat} (h : digit w (2 + i) ≤ 2) : ∃ m, operandMode (w / 100) (i + 1) = some m := by
  rw [operandMode_word]
  exact Option.ne_none_iff_exists'.1 fun hn => modeOfDigit_none.1 hn h

/-- The mode digit of an operand that has a mode is 0, 1 or 2 (R55). -/
theorem digit_le_two_of_operandMode {w i : Nat} {m : Mode} (h : operandMode (w / 100) (i + 1) = some m) :
    digit w (2 + i) ≤ 2 := by
  rw [operandMode_word] at h
  exact modeOfDigit_some h ▸ Mode.digit_le_two m

/-- The verdict once every mode is right: is there a digit above them (R56)? -/
theorem FormatVerdict.ofModesOk {w n : Nat} (i : Instr) (h : ModesOk w n) :
    FormatVerdict w n (if w / 100 / 10 ^ n = 0 then .ok i else .error .extraModeDigits) := by
  split
  · exact .legal i h ‹_›
  · exact .extra h ‹_›

theorem modesOk_succ {w n : Nat} : ModesOk w (n + 1) ↔ ModesOk w n ∧ digit w (2 + n) ≤ 2 :=
  ⟨fun h => ⟨fun i hi => h i (by omega), h n (by omega)⟩, fun ⟨h, hn⟩ i hi => by
    rcases Nat.lt_succ_iff_lt_or_eq.1 hi with hi | rfl
    · exact h i hi
    · exact hn⟩

theorem modesOk_zero (w : Nat) : ModesOk w 0 := fun _ hi => absurd hi (Nat.not_lt_zero _)

theorem formatVerdict_decodeF0 (i : Instr) (w : Nat) : FormatVerdict w 0 (decodeF0 i (w / 100)) := by
  have := FormatVerdict.ofModesOk i (modesOk_zero w)
  rwa [Nat.pow_zero, Nat.div_one] at this

theorem formatVerdict_decodeF1 (mk : Operand → Instr) (w : Nat) (lit : Nat → Int) :
    FormatVerdict w 1 (decodeF1 mk (w / 100) lit) := by
  rw [decodeF1]
  split
  next h₁ =>
    refine .badMode fun h => ?_
    obtain ⟨m₁, hm₁⟩ := exists_operandMode (h 0 (by decide))
    cases h₁.symm.trans hm₁
  next h₁ => exact .ofModesOk _ (modesOk_succ.2 ⟨modesOk_zero w, digit_le_two_of_operandMode h₁⟩)

theorem formatVerdict_decodeF2 (mk : Operand → Operand → Instr) (w : Nat) (lit : Nat → Int) :
    FormatVerdict w 2 (decodeF2 mk (w / 100) lit) := by
  rw [decodeF2]
  split
  next h₁ h₂ =>
    exact .ofModesOk _ (modesOk_succ.2
      ⟨modesOk_succ.2 ⟨modesOk_zero w, digit_le_two_of_operandMode h₁⟩, digit_le_two_of_operandMode h₂⟩)
  next hbad =>
    refine .badMode fun h => ?_
    obtain ⟨m₁, h₁⟩ := exists_operandMode (h 0 (by decide))
    obtain ⟨m₂, h₂⟩ := exists_operandMode (h 1 (by decide))
    exact hbad _ _ h₁ h₂

theorem formatVerdict_decodeF3 (mk : Operand → Operand → Operand → Instr) (w : Nat) (lit : Nat → Int) :
    FormatVerdict w 3 (decodeF3 mk (w / 100) lit) := by
  rw [decodeF3]
  split
  next h₁ h₂ h₃ =>
    exact .ofModesOk _ (modesOk_succ.2 ⟨modesOk_succ.2
      ⟨modesOk_succ.2 ⟨modesOk_zero w, digit_le_two_of_operandMode h₁⟩, digit_le_two_of_operandMode h₂⟩,
      digit_le_two_of_operandMode h₃⟩)
  next hbad =>
    refine .badMode fun h => ?_
    obtain ⟨m₁, h₁⟩ := exists_operandMode (h 0 (by decide))
    obtain ⟨m₂, h₂⟩ := exists_operandMode (h 1 (by decide))
    obtain ⟨m₃, h₃⟩ := exists_operandMode (h 2 (by decide))
    exact hbad _ _ _ h₁ h₂ h₃

/-- The decoder's verdict on every word. -/
theorem verdict_decodeWith (w : Int) (lit : Nat → Int) : Verdict w (decodeWith w lit) := by
  rw [decodeWith]
  split
  next hneg => exact .negative hneg
  next hneg =>
    have h0 : 0 ≤ w := Int.not_lt.1 hneg
    unfold decodeOpcode
    split
    case h_1 hop | h_2 hop | h_7 hop | h_8 hop =>
      exact .format h0 3 (by rw [hop]; rfl) (formatVerdict_decodeF3 ..)
    case h_3 hop | h_4 hop | h_9 hop => exact .format h0 1 (by rw [hop]; rfl) (formatVerdict_decodeF1 ..)
    case h_5 hop | h_6 hop => exact .format h0 2 (by rw [hop]; rfl) (formatVerdict_decodeF2 ..)
    case h_10 hop => exact .format h0 0 (by rw [hop]; rfl) (formatVerdict_decodeF0 ..)
    case h_11 => exact .badOpcode h0 (by simp_all [operandCount])

/-- Settles O4: the five verdicts exclude one another, so each is given exactly when its condition holds. -/
theorem everyWordIsLegalOrHasOneSubkind : Obligations.EveryWordIsLegalOrHasOneSubkind := by
  intro w lit
  have verdict := verdict_decodeWith w lit
  generalize decodeWith w lit = x at verdict ⊢
  cases verdict with
  | negative neg =>
    have hneg : ¬ 0 ≤ w := Int.not_le.2 neg
    simp [neg, hneg]
  | badOpcode nonneg opcode => simp [nonneg, Int.not_lt.2 nonneg, opcode]
  | format nonneg n opcode verdict =>
    simp only [nonneg, Int.not_lt.2 nonneg, opcode, Option.some.injEq, exists_eq_left', true_and]
    cases verdict with
    | badMode modes => simp only [eq_false modes]; simp
    | extra modes above => simp only [eq_true modes, ne_eq, eq_false above]; simp
    | legal i modes above => simp only [eq_true modes, above]; simp

/-! ## The cells of an encoding -/

theorem Operand.wf_iff {w : Nat} {o : Operand} : o.wf w = true ↔ Fits w o.lit := decide_eq_true_iff

theorem instr_wf_eq_all (w : Nat) (i : Instr) : i.wf w = i.operands.all (·.wf w) := by
  cases i <;> simp [Instr.wf, Instr.operands, Bool.and_assoc]

/-- No instruction word has more than five digits (R42, R59). -/
theorem word_lt (i : Instr) : i.word < 100000 := by
  have hop := opcode_lt_hundred i
  have hmodes : modeDigits i.operands < 1000 := by
    have hlen : i.operands.length ≤ 3 := by cases i <;> simp [Instr.operands]
    exact (modeDigits_lt i.operands).trans_le (Nat.pow_le_pow_right (by decide) hlen)
  simp only [Instr.word]
  omega

/-- Every word of at most five digits is representable (00_scope R5). -/
theorem fits_of_lt {w n : Nat} (hw : 64 ≤ w) (hn : n < 100000) : Fits w n := by
  have hp : (2 : Nat) ^ 17 ≤ 2 ^ (w - 1) := Nat.pow_le_pow_right (by decide) (by omega)
  constructor <;> simp only [minValue, maxValue] <;> omega

/-- Settles O5: the word has at most five digits, and the other cells are literal words. -/
theorem encodedCellsAreRepresentable : Obligations.EncodedCellsAreRepresentable := by
  intro w i hw hwf v hv
  rcases List.mem_cons.1 hv with rfl | hv
  · exact fits_of_lt hw (word_lt i)
  · obtain ⟨o, ho, rfl⟩ := List.mem_map.1 hv
    rw [instr_wf_eq_all, List.all_eq_true] at hwf
    exact Operand.wf_iff.1 (hwf o ho)

/-- Settles O1: each list of cells is decoded by evaluation. -/
theorem specWordsDecodeAsWritten : Obligations.SpecWordsDecodeAsWritten := by
  unfold Obligations.SpecWordsDecodeAsWritten
  decide

end Sys2Proof.Machine
end

section
/-! PROOFS. Family other: memory and channels (20_memory R27 to R30; 44_io R88). -/

namespace Sys2Proof.Machine

/-! ## Memory -/

/-- Settles O44: read after write in a canonical memory, and growth is a maximum. -/
theorem memWriteWritesOneCell : Obligations.MemWriteWritesOneCell := by
  intro c e a v n hw _ ha
  obtain ⟨hok, rfl⟩ := addrOk_of_checkAddr ha
  refine ⟨Int.toNat_of_nonneg hok.1, Memory.write_wf hw _ v, fun b => Memory.read_write hw _ b v, ?_, rfl, rfl, rfl⟩
  rw [store_len]
  split <;> omega

/-- Settles O47: the three answers of `CheckAddr` are the three of `MemRead`. -/
theorem memReadChecksReadsAndGrows : Obligations.MemReadChecksReadsAndGrows := by
  intro c e a
  refine ⟨fun hneg => ?negative, fun h0 hlim => ?beyond, fun h0 haddr => ?inside⟩
  case negative => simp [memRead, checkAddr, hneg]
  case beyond => simp [memRead, checkAddr, Int.not_lt.2 h0, hlim]
  case inside =>
    rw [memRead, checkAddr_eq_ok ⟨h0, haddr⟩]
    rfl

/-- Below the first listed address everything reads 0. -/
theorem Memory.read_below_head {b a : Nat} {x : Int} {m : Memory} (h : Memory.wf ((b, x) :: m)) (ha : a < b) :
    Memory.read ((b, x) :: m) a = 0 :=
  Memory.read_unlisted fun p hp => by
    rcases List.mem_cons.1 hp with rfl | hp
    · exact Nat.ne_of_gt ha
    · exact Nat.ne_of_gt (ha.trans (Memory.wf_head_lt h p hp))

/-- The first listed address reads its value, which is not 0. -/
theorem Memory.read_head {b : Nat} {x : Int} {m : Memory} : Memory.read ((b, x) :: m) b = x := by
  simp [Memory.read]

theorem Memory.head_ne_zero {b : Nat} {x : Int} {m : Memory} (h : Memory.wf ((b, x) :: m)) : x ≠ 0 :=
  h.2 (b, x) (List.mem_cons_self ..)

/-- Memories that read alike have their first listed address at the same place. -/
theorem Memory.head_le_of_read_eq {b c : Nat} {x y : Int} {m m' : Memory} (h : Memory.wf ((b, x) :: m))
    (h' : Memory.wf ((c, y) :: m')) (hr : ∀ a, Memory.read ((b, x) :: m) a = Memory.read ((c, y) :: m') a) : b ≤ c := by
  refine Nat.le_of_not_lt fun hlt => Memory.head_ne_zero h' ?_
  calc y = Memory.read ((c, y) :: m') c := Memory.read_head.symm
    _ = Memory.read ((b, x) :: m) c := (hr c).symm
    _ = 0 := Memory.read_below_head h hlt

/-- Past a common first entry, what reads alike still does. -/
theorem Memory.tail_read_eq {b : Nat} {x : Int} {m m' : Memory} (h : Memory.wf ((b, x) :: m))
    (h' : Memory.wf ((b, x) :: m')) (hr : ∀ a, Memory.read ((b, x) :: m) a = Memory.read ((b, x) :: m') a) (a : Nat) :
    Memory.read m a = Memory.read m' a := by
  by_cases hab : b = a
  · subst hab
    rw [Memory.read_unlisted fun p hp => Nat.ne_of_gt (Memory.wf_head_lt h p hp),
      Memory.read_unlisted fun p hp => Nat.ne_of_gt (Memory.wf_head_lt h' p hp)]
  · simpa [Memory.read, hab] using hr a

/-- Settles O45, by induction on the entries: the first ones agree in address and value, and the rest by hypothesis. -/
theorem equalReadingsAreEqualMemories : Obligations.EqualReadingsAreEqualMemories := by
  intro m
  induction m with
  | nil =>
    rintro (_ | ⟨⟨c, y⟩, m'⟩) _ h' hr
    · rfl
    · exact absurd ((hr c).trans Memory.read_head).symm (Memory.head_ne_zero h')
  | cons p m ih =>
    obtain ⟨b, x⟩ := p
    rintro (_ | ⟨⟨c, y⟩, m'⟩) h h' hr
    · exact absurd (Memory.read_head.symm.trans (hr b)) (Memory.head_ne_zero h)
    · obtain rfl : b = c := Nat.le_antisymm (Memory.head_le_of_read_eq h h' hr)
        (Memory.head_le_of_read_eq h' h fun a => (hr a).symm)
      obtain rfl : x = y := Memory.read_head.symm.trans ((hr b).trans Memory.read_head)
      rw [ih m' (Memory.wf_tail h) (Memory.wf_tail h') (Memory.tail_read_eq h h' hr)]

/-! ## Channels -/

/-- Settles O48: each order takes from its end. -/
theorem popTakesFromTheConfiguredEnd : Obligations.PopTakesFromTheConfiguredEnd := by
  intro c ch v vs
  refine ⟨fun ho hc => ?lifo, fun ho hc => ?fifo, pop_none⟩
  case lifo => simp [Channel.pop, ho, hc]
  case fifo => simp [Channel.pop, ho, hc]

end Sys2Proof.Machine
end

section
/-! PROOFS. Family other: the fetch, the checks of `Decode`, and what each instruction does (30_encoding R50, R51;
41_alu; 42_jumps; 43_relbase; 44_io; 45_halt). -/

namespace Sys2Proof.Machine

section

variable {s : State} {r : Run} {e : Engine}

/-! ## The fetch -/

/-- Growth is never a loss (20_memory R28). -/
theorem len_le_grow_len (e : Engine) (a : Nat) : e.len ≤ (e.grow a).len := by
  rw [grow_len]
  exact Nat.le_max_left ..

/-- A step of a run executes what the cells at `ip` decode to, in the state grown to hold the word (R50, R51). -/
theorem step_of_decodes (ha : s.active = some (r, e)) (hip : addressable s.cfg e.ip = true) {i : Instr}
    (hd : decodeWith (e.mem.read e.ip) (fun k => e.mem.read (e.ip + k)) = .ok i) :
    step s = exec i (s.goOn r (e.grow e.ip)) := by
  simp only [step, (active_eq_some.1 ha).1, fetch_eq ha, hip, if_true, hd]

/-- A word that does not decode takes DecodeFault (R54 to R56). -/
theorem step_of_undecodable (ha : s.active = some (r, e)) (hip : addressable s.cfg e.ip = true) {sub : DecodeSubkind}
    (hd : decodeWith (e.mem.read e.ip) (fun k => e.mem.read (e.ip + k)) = .error sub) :
    step s = .next (s.takeFault r (e.grow e.ip) (.decode sub (e.mem.read e.ip))) := by
  simp only [step, (active_eq_some.1 ha).1, fetch_eq ha, hip, if_true, hd]

/-- A fetch beyond MEM_LIMIT takes CapacityFault (R50). -/
theorem step_of_beyond (ha : s.active = some (r, e)) (hip : addressable s.cfg e.ip = false) :
    step s = .next (s.takeFault r e (.capacity e.ip)) := by
  simp only [step, (active_eq_some.1 ha).1, fetch_eq ha, hip]
  rfl

/-! ## The checks of `Decode` -/

/-- A failing check takes its fault, whatever would have been executed (R94). -/
theorem decodeThen_takesFault {α : Type} (ha : s.active = some (r, e)) {phase : Config → Engine → Access α}
    {k : Run → Engine → α → Out} {cs gs : List Int} {v : α} {f : EngineFault}
    (hp : Meets s.cfg e cs gs v (phase s.cfg e)) (hf : firstFault s.cfg cs = some f) :
    ∃ s', s.decodeThen phase k = .next s' ∧ TakesFault s r e f s' := by
  obtain ⟨l, hl, hd⟩ := decodeThen_raise (k := k) ha hp hf
  exact ⟨_, hd, takesFault_takeFault ha hl.le f⟩

/-! ## ADD, MUL, LT, EQ -/

/-- A three-operand instruction with a result in range writes it and goes on (41_alu R78 to R81). -/
theorem aluOp_completes (ha : s.active = some (r, e)) (hw : e.mem.wf)
    {res : Config → Int → Int → Except EngineFault Int} {a b d : Operand} {x : Int} {i : Instr}
    (hi : checks e i = readChecks e 1 a ++ readChecks e 2 b ++ destChecks e 3 d) (hr : Ready s.cfg e i)
    (hx : res s.cfg (operandValue e a) (operandValue e b) = .ok x) :
    ∃ s' e', aluOp res a b d s = .next s' ∧ Wrote e i d x 4 e' ∧ Continues s r e' s.channels s' := by
  rw [Ready, hi] at hr
  exact ⟨_, _, alu_ok ha hr hx, wrote_store hw (hi.trans (alu_checks e a b d)), continues_goOn ha _⟩

theorem checkedResult_eq_ok {c : Config} {op : Nat} {v : Int} (h : Fits c.cellBits v) :
    checkedResult c op v = .ok v := if_pos h

theorem checkedResult_eq_error {c : Config} {op : Nat} {v : Int} (h : ¬ Fits c.cellBits v) :
    checkedResult c op v = .error (.overflow op) := if_neg h

/-! ## JT, JF -/

/-- A taken jump to a target that passes its check sets `ip` (42_jumps R82). -/
theorem branch_taken {e : Engine} {t : Int} (ht : AddrOk s.cfg t) :
    branch s r e true t = .next (s.goOn r { e with ip := t.toNat }) := by
  simp only [branch, if_true, checkAddr_eq_ok ht]

/-- A taken jump ends at its target and goes on (R82). -/
theorem jump_taken (ha : s.active = some (r, e)) {c t : Operand} {i : Instr} {p : Int → Bool}
    (hi : checks e i = readChecks e 1 c ++ readChecks e 2 t) (hr : Ready s.cfg e i) (hp : p (operandValue e c) = true)
    (ht : AddrOk s.cfg (operandValue e t)) :
    ∃ s' e', s.decodeThen (jumpOperands c t) (fun r x v => branch s r x (p v.1) v.2) = .next s' ∧
      Moved e i (operandValue e t).toNat e.rb e' ∧ Continues s r e' s.channels s' := by
  rw [Ready, hi] at hr
  refine ⟨_, _, (jump_ok ha hr).trans ?_, moved_self i _ _ e.rb (congrArg _ hi.symm), continues_goOn ha _⟩
  rw [hp, branch_taken ht]

/-- A jump not taken advances by 3 and does not look at its target (R82). -/
theorem jump_notTaken (ha : s.active = some (r, e)) {c t : Operand} {i : Instr} {p : Int → Bool}
    (hi : checks e i = readChecks e 1 c ++ readChecks e 2 t) (hr : Ready s.cfg e i)
    (hp : p (operandValue e c) = false) :
    ∃ s' e', s.decodeThen (jumpOperands c t) (fun r x v => branch s r x (p v.1) v.2) = .next s' ∧
      Moved e i (e.ip + 3) e.rb e' ∧ Continues s r e' s.channels s' := by
  rw [Ready, hi] at hr
  refine ⟨_, _, (jump_ok ha hr).trans ?_, moved_self i _ _ e.rb (congrArg _ hi.symm), continues_goOn ha _⟩
  simp only [hp, branch]
  rfl

/-- A taken jump to a target that fails its check takes that fault (R82). -/
theorem jump_bad (ha : s.active = some (r, e)) {c t : Operand} {i : Instr} {p : Int → Bool}
    (hi : checks e i = readChecks e 1 c ++ readChecks e 2 t) (hr : Ready s.cfg e i)
    (hp : p (operandValue e c) = true) :
    (operandValue e t < 0 →
      ∃ s', s.decodeThen (jumpOperands c t) (fun r x v => branch s r x (p v.1) v.2) = .next s' ∧
        TakesFault s r e (.address (operandValue e t)) s') ∧
    (0 ≤ operandValue e t → addressable s.cfg (operandValue e t).toNat = false →
      ∃ s', s.decodeThen (jumpOperands c t) (fun r x v => branch s r x (p v.1) v.2) = .next s' ∧
        TakesFault s r e (.capacity (operandValue e t)) s') := by
  rw [Ready, hi] at hr
  rw [jump_ok ha hr, hp]
  exact branch_bad ha (grown_grownLen hr _).le

/-! ## IN, OUT -/

theorem yieldIf_free {e : Engine} {ch : Channel} (h : ch.blocking = false) (st : Status) (code : Int) :
    yieldIf s r e ch st code = .next (s.goOn r e) := by
  simp [yieldIf, h]

theorem yieldIf_blocking {e : Engine} {ch : Channel} (h : ch.blocking = true) (st : Status) (code : Int) :
    yieldIf s r e ch st code = .next (s.endRun r e st (.signal code)) := by
  simp [yieldIf, h]

/-- IN on a channel with a value stores it, up to the suspension (44_io R89). -/
theorem execInp_completes (ha : s.active = some (r, e)) (hw : e.mem.wf) {d : Operand} (hr : Ready s.cfg e (.inp d))
    {ch ch' : Channel} {v : Int} (hch : s.channels[r.inp]? = some ch) (hp : ch.pop s.cfg = some (v, ch')) :
    ∃ e', Wrote e (.inp d) d v 2 e' ∧
      exec (.inp d) s = yieldIf (s.setChannel r.inp ch') r e' ch .suspendedOnInput s.cfg.sigIn := by
  refine ⟨_, wrote_store hw (gs := [((e.ip + 1 : Nat) : Int)]) rfl, (target_ok ha hr).trans ?_⟩
  simp only [hch, hp]

/-- OUT on a channel that is not full appends, up to the suspension (44_io R90). -/
theorem execOut_completes (ha : s.active = some (r, e)) {a : Operand} (hr : Ready s.cfg e (.out a)) {ch : Channel}
    (hch : s.channels[r.out]? = some ch) (hf : ch.isFull s.cfg = false) :
    ∃ e', Moved e (.out a) (e.ip + 2) e.rb e' ∧
      exec (.out a) s = yieldIf (s.setChannel r.out { ch with contents := ch.contents ++ [operandValue e a] }) r e' ch
        .suspendedOnOutput s.cfg.sigOut := by
  refine ⟨_, moved_self (.out a) _ _ e.rb rfl, (source_ok ha hr).trans ?_⟩
  simp only [hch, Channel.push, hf]
  rfl

end

/-! ## The statements on the step -/

/-- Settles O6: the fetch grows the memory over the word and hands the instruction on. -/
theorem stepExecutesTheDecodedInstruction : Obligations.StepExecutesTheDecodedInstruction := by
  intro s r e i ha hip hd
  rw [step_of_decodes ha hip hd, grow_eq_max]
  rfl

/-- Settles O7. -/
theorem undecodableWordTakesDecodeFault : Obligations.UndecodableWordTakesDecodeFault := by
  intro s r e sub ha hip hd
  exact ⟨_, step_of_undecodable ha hip hd, takesFault_takeFault ha (len_le_grow_len e e.ip) _⟩

/-- Settles O8. -/
theorem fetchBeyondTheLimitTakesCapacityFault : Obligations.FetchBeyondTheLimitTakesCapacityFault := by
  intro s r e ha hip
  exact ⟨_, step_of_beyond ha hip, takesFault_takeFault ha (Nat.le_refl _) _⟩

/-- Settles O9: each instruction resolves its operands with the checks the spec lists for it. -/
theorem firstFailingOperandCheckTakesTheFault : Obligations.FirstFailingOperandCheckTakesTheFault := by
  intro s r e i f ha hf
  cases i with
  | add a b d | mul a b d | lt a b d | eq a b d => exact decodeThen_takesFault ha (meets_aluOperands a b d s.cfg e) hf
  | jt c t | jf c t => exact decodeThen_takesFault ha (meets_jumpOperands c t s.cfg e) hf
  | inp d => exact decodeThen_takesFault ha (meets_targetOperand d s.cfg e) hf
  | out a | arb a => exact decodeThen_takesFault ha (meets_sourceOperand a s.cfg e) hf
  | hlt => cases hf

/-! ## The statements on ADD, MUL, LT, EQ -/

/-- Settles O10. -/
theorem addWritesTheSum : Obligations.AddWritesTheSum := by
  intro s r e a b d ha hw hr hfits
  exact aluOp_completes ha hw rfl hr (checkedResult_eq_ok hfits)

/-- Settles O11. -/
theorem mulWritesTheProduct : Obligations.MulWritesTheProduct := by
  intro s r e a b d ha hw hr hfits
  exact aluOp_completes ha hw rfl hr (checkedResult_eq_ok hfits)

/-- Settles O12, by the two cases of the comparison. -/
theorem ltWritesTheSignedComparison : Obligations.LtWritesTheSignedComparison := by
  intro s r e a b d ha hw hr
  obtain ⟨s', e', hexec, hwrote, hcont⟩ := aluOp_completes (res := fun _ => ltResult) ha hw rfl hr rfl
  refine ⟨s', e', hexec, hcont, fun hlt => ?less, fun hle => ?notLess⟩
  case less => rwa [if_pos hlt] at hwrote
  case notLess => rwa [if_neg (Int.not_lt.2 hle)] at hwrote

/-- Settles O13, by the two cases of the comparison. -/
theorem eqWritesTheEquality : Obligations.EqWritesTheEquality := by
  intro s r e a b d ha hw hr
  obtain ⟨s', e', hexec, hwrote, hcont⟩ := aluOp_completes (res := fun _ => eqResult) ha hw rfl hr rfl
  refine ⟨s', e', hexec, hcont, fun heq => ?equal, fun hne => ?different⟩
  case equal => rwa [if_pos heq] at hwrote
  case different => rwa [if_neg hne] at hwrote

/-- Settles O14. -/
theorem unrepresentableResultTakesOverflowFault : Obligations.UnrepresentableResultTakesOverflowFault := by
  intro s r e a b d ha
  refine ⟨fun hr hx => ?add, fun hr hx => ?mul, fun hr hx => ?arb⟩
  case add => exact alu_bad ha hr (checkedResult_eq_error hx)
  case mul => exact alu_bad ha hr (checkedResult_eq_error hx)
  case arb =>
    refine ⟨_, (source_ok ha hr).trans ?_, takesFault_takeFault ha (grown_grownLen (as := readChecks e 1 a) hr _).le _⟩
    simp only [rbResult, checkedResult_eq_error hx]

/-! ## The statements on JT, JF, ARB -/

/-- Settles O15. -/
theorem jtJumpsExactlyOnNonzero : Obligations.JtJumpsExactlyOnNonzero := by
  intro s r e c t ha hr
  exact ⟨fun hc ht => jump_taken (p := fun v => decide (v ≠ 0)) ha rfl hr (decide_eq_true hc) ht,
    fun hc => jump_notTaken (p := fun v => decide (v ≠ 0)) ha rfl hr (decide_eq_false (not_not.2 hc))⟩

/-- Settles O16. -/
theorem jfJumpsExactlyOnZero : Obligations.JfJumpsExactlyOnZero := by
  intro s r e c t ha hr
  exact ⟨fun hc ht => jump_taken (p := fun v => decide (v = 0)) ha rfl hr (decide_eq_true hc) ht,
    fun hc => jump_notTaken (p := fun v => decide (v = 0)) ha rfl hr (decide_eq_false hc)⟩

/-- Settles O17. -/
theorem takenJumpToABadTargetFaults : Obligations.TakenJumpToABadTargetFaults := by
  rintro s r e c t i ha hr (⟨rfl, hc⟩ | ⟨rfl, hc⟩)
  · exact jump_bad (p := fun v => decide (v ≠ 0)) ha rfl hr (decide_eq_true hc)
  · exact jump_bad (p := fun v => decide (v = 0)) ha rfl hr (decide_eq_true hc)

/-- Settles O18. -/
theorem arbAddsToTheRelativeBase : Obligations.ArbAddsToTheRelativeBase := by
  intro s r e a ha hr hfits
  refine ⟨_, _, (source_ok ha hr).trans ?_, moved_self (.arb a) _ _ _ rfl, continues_goOn ha _⟩
  simp only [rbResult, checkedResult_eq_ok hfits]
  rfl

/-! ## The statements on IN, OUT, HLT -/

/-- Settles O19. -/
theorem inputStoresThePoppedValueAndGoesOn : Obligations.InputStoresThePoppedValueAndGoesOn := by
  intro s r e d ch ch' v ha hw hr hch hp hb
  obtain ⟨e', hwrote, hexec⟩ := execInp_completes ha hw hr hch hp
  exact ⟨_, e', hexec.trans (yieldIf_free hb ..), hwrote, continues_chan ha ..⟩

/-- Settles O20. -/
theorem inputOnABlockingChannelSuspends : Obligations.InputOnABlockingChannelSuspends := by
  intro s r e d ch ch' v ha hw hr hch hp hb
  obtain ⟨e', hwrote, hexec⟩ := execInp_completes ha hw hr hch hp
  exact ⟨_, e', hexec.trans (yieldIf_blocking hb ..), hwrote, ends_chan ha ..⟩

/-- Settles O21, by the channel's flag. -/
theorem inputOnAnEmptyChannelWaitsOrUnderflows : Obligations.InputOnAnEmptyChannelWaitsOrUnderflows := by
  intro s r e d ch ha hr hch hempty
  have hp : ch.pop s.cfg = none := pop_none.2 hempty
  refine ⟨fun hb => ⟨_, (target_ok ha hr).trans ?waits, ends_endRun ha { e with len := max e.len (e.ip + 2) } _ _⟩,
    fun hb => ⟨_, (target_ok ha hr).trans ?underflows, takesFault_takeFault ha (Nat.le_max_left _ (e.ip + 2)) _⟩⟩
  case waits =>
    simp only [hch, hp, hb, if_true]
    rfl
  case underflows =>
    simp only [hch, hp, hb]
    rfl

/-- Settles O22. -/
theorem outputAppendsAndGoesOn : Obligations.OutputAppendsAndGoesOn := by
  intro s r e a ch ha hr hch hf hb
  obtain ⟨e', hmoved, hexec⟩ := execOut_completes ha hr hch hf
  exact ⟨_, e', hexec.trans (yieldIf_free hb ..), hmoved, continues_chan ha ..⟩

/-- Settles O23. -/
theorem outputOnABlockingChannelSuspends : Obligations.OutputOnABlockingChannelSuspends := by
  intro s r e a ch ha hr hch hf hb
  obtain ⟨e', hmoved, hexec⟩ := execOut_completes ha hr hch hf
  exact ⟨_, e', hexec.trans (yieldIf_blocking hb ..), hmoved, ends_chan ha ..⟩

/-- Settles O24: a channel of CHAN_DEPTH values is full. -/
theorem outputOnAFullChannelOverflows : Obligations.OutputOnAFullChannelOverflows := by
  intro s r e a ch n ha hr hch hdepth hn
  have hfull : ch.isFull s.cfg = true := by simp [Channel.isFull, hdepth, hn]
  refine ⟨_, (source_ok ha hr).trans ?_, takesFault_takeFault ha (grown_grownLen (as := readChecks e 1 a) hr _).le _⟩
  simp only [hch, Channel.push, hfull, if_true]

/-- Settles O25. -/
theorem haltEndsTheRunWithSignalZero : Obligations.HaltEndsTheRunWithSignalZero := by
  intro s r e ha
  have hexec : exec .hlt s = execHlt s := rfl
  exact ⟨_, hexec.trans (decodeThen_ok ha (meets_noOperand s.cfg e) rfl), ends_endRun ha e _ _⟩

/-! ## Pseudo-instructions and self-modifying code -/

/-- Settles O26: each is the instruction it abbreviates, with the immediate operand's value put in. -/
theorem pseudoInstructionsDoWhatTheyName : Obligations.PseudoInstructionsDoWhatTheyName := by
  intro s r e x d ha hw hbits
  have imm (n : Int) : operandValue e (.imm n) = n := rfl
  have hjt := jtJumpsExactlyOnNonzero s r e
  refine ⟨fun hr ht => ?jmp, fun hr => ?nop, fun hr hfits => ?mov, fun hr => ?clr, fun hr hfits => ?neg⟩
  case jmp => exact (hjt _ _ ha hr).1 (by rw [imm]; decide) ht
  case nop => exact (hjt _ _ ha hr).2 (imm 0)
  case mov =>
    have hadd := addWritesTheSum s r e x (.imm 0) d ha hw hr
    rw [imm, Int.add_zero] at hadd
    exact hadd hfits
  case clr =>
    have hadd := addWritesTheSum s r e (.imm 0) (.imm 0) d ha hw hr
    rw [imm, Int.add_zero] at hadd
    exact hadd (fits_small hbits (Int.le_refl 0) (by decide))
  case neg =>
    have hmul := mulWritesTheProduct s r e x (.imm (-1)) d ha hw hr
    rw [imm, Int.mul_neg_one] at hmul
    exact hmul hfits

/-- The decoder does not look at `lit 0` (R51). -/
theorem decodeWith_congr {w : Int} {lit lit' : Nat → Int} (h : ∀ k, 0 < k → lit k = lit' k) :
    decodeWith w lit = decodeWith w lit' := by
  have h₁ := h 1 (by decide)
  have h₂ := h 2 (by decide)
  have h₃ := h 3 (by decide)
  simp only [decodeWith, decodeOpcode, decodeF1, decodeF2, decodeF3, h₁, h₂, h₃]

/-- Settles O27: the ADD leaves `ip` at the cell it wrote, and the cells behind it as they were. -/
theorem writtenWordIsTheNextInstruction : Obligations.WrittenWordIsTheNextInstruction := by
  intro s r e a b d i ha hw hr hfits hdest hd
  obtain ⟨s', e', hexec, hwrote, hcont⟩ := addWritesTheSum s r e a b d ha hw hr hfits
  refine ⟨s', e', hexec, hwrote, hcont, ?_⟩
  have hcell (n : Nat) : e'.mem.read n = if n = e.ip + 4 then operandValue e a + operandValue e b else e.mem.read n := by
    rw [hwrote.cell, hdest, Int.toNat_natCast]
  have hactive : s'.active = some (r, e') :=
    active_eq_some.2 ⟨hcont.running.trans (active_eq_some.1 ha).1, hcont.engine⟩
  have haddr : addressable s'.cfg e'.ip = true := by
    have hok := hr (destAddr e d) (by simp [checks, destChecks])
    rw [hdest] at hok
    rw [hcont.cfg, hwrote.ip]
    exact hok.2
  have hdec : decodeWith (e'.mem.read e'.ip) (fun k => e'.mem.read (e'.ip + k)) = .ok i := by
    rw [hwrote.ip, hcell, if_pos rfl, ← hd]
    exact decodeWith_congr fun k hk => by rw [hcell, if_neg (by omega)]
  rw [stepExecutesTheDecodedInstruction s' r e' i hactive haddr hdec, hwrote.ip]

end Sys2Proof.Machine
end

section
/-! PROOFS. Family other: what a step of a run can change (20_memory R30, R36; 40_engine R65, R68; 43_relbase; 44_io;
60_exceptions R95). -/

namespace Sys2Proof.Machine

section

variable {s s' : State} {r : Run} {e e' : Engine} {i : Instr}

/-- Only the Engine a fault leaves behind counts, not the one the fetch put back. -/
theorem goOn_takeFault (s : State) (r : Run) (e x : Engine) (f : EngineFault) :
    (s.goOn r x).takeFault r e f = s.takeFault r e f := by
  simp only [State.takeFault, State.endRun, State.goOn, setEngine_setEngine]

/-! ## Faults -/

section

variable (ha : s.active = some (r, e)) (hrun : e.status = .running) (he : s'.engine? r.engine = some e')
  {f : FaultRecord} (hf : e'.status = .faulted f)
include ha hrun he hf

/-- An instruction that leaves the Engine Faulted has taken a fault at its `ip` (R95). -/
theorem Effect.eq_takeFault (h : Effect s r e i s') :
    ∃ l, e.len ≤ l ∧ f.ip = e.ip ∧ s' = s.takeFault r { e with len := l } f.cause := by
  cases h with
  | fault grown =>
    cases (status_of_takeFault ha he).symm.trans hf
    exact ⟨_, grown.le, rfl, rfl⟩
  | alu | jump | base =>
    cases (engine?_goOn_self ha _).symm.trans he
    cases hrun.symm.trans hf
  | input | output =>
    cases (engine?_setChannel_goOn ha _ _ _).symm.trans he
    cases hrun.symm.trans hf
  | inputWait | halt =>
    cases (engine?_endRun_self ha _ _ _).symm.trans he
    cases hf
  | inputYield | outputYield =>
    cases (engine?_setChannel_endRun ha _ _ _ _ _).symm.trans he
    cases hf

/-- A step that leaves the Engine Faulted has taken a fault at its `ip`, and remembers at most the growth (R95). -/
theorem step_eq_takeFault (h : step s = .next s') :
    ∃ l, e.len ≤ l ∧ f.ip = e.ip ∧ s' = s.takeFault r { e with len := l } f.cause := by
  rcases step_effect ha h with ⟨g, l, hl, rfl⟩ | ⟨i, -, hg, heff⟩
  · cases (status_of_takeFault ha he).symm.trans hf
    exact ⟨l, hl.le, rfl, rfl⟩
  · obtain ⟨l, hl, hip, rfl⟩ := heff.eq_takeFault (active_goOn ha (e.grow e.ip)) hrun he hf
    exact ⟨l, hg.le.trans hl, hip, goOn_takeFault ..⟩

end

/-! ## What an instruction leaves under the run's handle -/

section

variable (ha : s.active = some (r, e)) (he : s'.engine? r.engine = some e') (h : Effect s r e i s')
include ha he h

/-- Only ARB writes `rb` (43_relbase R85). -/
theorem Effect.rb_eq (hi : ∀ a, i ≠ .arb a) : e'.rb = e.rb := by
  cases h with
  | base => exact absurd rfl (hi _)
  | alu | jump =>
    cases (engine?_goOn_self ha _).symm.trans he
    rfl
  | input | output =>
    cases (engine?_setChannel_goOn ha _ _ _).symm.trans he
    rfl
  | fault | inputWait | halt =>
    cases (engine?_endRun_self ha _ _ _).symm.trans he
    rfl
  | inputYield | outputYield =>
    cases (engine?_setChannel_endRun ha _ _ _ _ _).symm.trans he
    rfl

/-- An instruction keeps its Engine's memory or writes the cell its destination addresses (20_memory R30). -/
theorem Effect.mem_eq : e'.mem = e.mem ∨
    ∃ d x, destination i = some d ∧ e'.mem = e.mem.write (destAddr e d).toNat x := by
  cases h with
  | alu _ dest =>
    cases (engine?_goOn_self ha _).symm.trans he
    exact .inr ⟨_, _, dest, rfl⟩
  | input =>
    cases (engine?_setChannel_goOn ha _ _ _).symm.trans he
    exact .inr ⟨_, _, rfl, rfl⟩
  | inputYield =>
    cases (engine?_setChannel_endRun ha _ _ _ _ _).symm.trans he
    exact .inr ⟨_, _, rfl, rfl⟩
  | jump | base =>
    cases (engine?_goOn_self ha _).symm.trans he
    exact .inl rfl
  | output =>
    cases (engine?_setChannel_goOn ha _ _ _).symm.trans he
    exact .inl rfl
  | fault | inputWait | halt =>
    cases (engine?_endRun_self ha _ _ _).symm.trans he
    exact .inl rfl
  | outputYield =>
    cases (engine?_setChannel_endRun ha _ _ _ _ _).symm.trans he
    exact .inl rfl

end

/-- The two ends of an instruction: the run goes on with the Engine Running, or it is over with one result of the table
(40_engine R65, R68). -/
def EndsByTable (s : State) (r : Run) (ip : Nat) (s' : State) : Prop :=
  ∃ e', s'.engine? r.engine = some e' ∧
    ((s'.running = some r ∧ e'.status = .running ∧ s'.results = s.results) ∨
      ∃ res, s'.running = none ∧ RunResult s.cfg ip e'.status res ∧ s'.results = s.results ++ [res])

/-- Every instruction of a Running Engine ends by the table. -/
theorem Effect.endsByTable (ha : s.active = some (r, e)) (hrun : e.status = .running) (h : Effect s r e i s') :
    EndsByTable s r e.ip s' := by
  have hr := (active_eq_some.1 ha).1
  cases h with
  | alu | jump | base => exact ⟨_, engine?_goOn_self ha _, .inl ⟨hr, hrun, rfl⟩⟩
  | input | output => exact ⟨_, engine?_setChannel_goOn ha _ _ _, .inl ⟨hr, hrun, rfl⟩⟩
  | fault => exact ⟨_, engine?_endRun_self ha _ _ _, .inr ⟨_, rfl, .fault _, rfl⟩⟩
  | halt => exact ⟨_, engine?_endRun_self ha _ _ _, .inr ⟨_, rfl, .halted, rfl⟩⟩
  | inputWait => exact ⟨_, engine?_endRun_self ha _ _ _, .inr ⟨_, rfl, .input, rfl⟩⟩
  | inputYield => exact ⟨_, engine?_setChannel_endRun ha _ _ _ _ _, .inr ⟨_, rfl, .input, rfl⟩⟩
  | outputYield => exact ⟨_, engine?_setChannel_endRun ha _ _ _ _ _, .inr ⟨_, rfl, .output, rfl⟩⟩

end

/-! ## The statements -/

/-- Settles O28. -/
theorem faultsArePrecise : Obligations.FaultsArePrecise := by
  intro s s' r e e' f ha hrun h he hf
  obtain ⟨l, hl, hip, rfl⟩ := step_eq_takeFault ha hrun he hf h
  exact ⟨hip, takesFault_takeFault ha hl _⟩

/-- Settles O29. -/
theorem onlyArbWritesTheRelativeBase : Obligations.OnlyArbWritesTheRelativeBase := by
  intro s s' r e e' i ha h he hi
  exact (exec_effect ha h).rb_eq ha he hi

/-- Settles O30: a write at the destination leaves every other cell. -/
theorem onlyTheDestinationCellChanges : Obligations.OnlyTheDestinationCellChanges := by
  intro s s' r e e' i ha hw h he n hn
  rcases (exec_effect ha h).mem_eq ha he with hsame | ⟨d, x, hd, hwrite⟩
  · rw [hsame]
  · rw [hwrite, Memory.read_write hw, if_neg (hn d hd)]

/-- Settles O31. -/
theorem aRunTouchesOnlyItsEngineAndChannels : Obligations.ARunTouchesOnlyItsEngineAndChannels := by
  intro s s' r e ha h
  refine ⟨fun k hk => engine?_step_ne ha h hk, ?_⟩
  rcases step_effect ha h with ⟨f, l, -, rfl⟩ | ⟨i, -, -, heff⟩
  · exact ⟨fun _ _ _ => rfl, rfl⟩
  · obtain ⟨-, hcommands, -, -, hchannels⟩ := heff.frame
    exact ⟨hchannels, hcommands⟩

/-- Settles O33. -/
theorem onlyInputAndOutputTouchChannels : Obligations.OnlyInputAndOutputTouchChannels := by
  intro s s' r e i ha h
  cases exec_effect ha h with
  | fault | alu | jump | base | inputWait | halt => exact .inl rfl
  | input _ _ _ chan popped | inputYield _ _ _ chan popped =>
    exact .inr (.inl ⟨_, _, _, _, rfl, chan, popped, rfl⟩)
  | output _ _ chan pushed | outputYield _ _ chan pushed => exact .inr (.inr ⟨_, _, _, rfl, chan, pushed, rfl⟩)

/-- Settles O35: the fetch faults, or the instruction ends by the table. -/
theorem aStepOfARunFollowsTheTransitionTable : Obligations.AStepOfARunFollowsTheTransitionTable := by
  intro s s' r e ha hrun h
  rcases step_effect ha h with ⟨f, l, -, rfl⟩ | ⟨i, -, -, heff⟩
  · exact ⟨_, engine?_endRun_self ha _ _ _, .inr ⟨_, rfl, .fault f, rfl⟩⟩
  · exact (heff.endsByTable (active_goOn ha (e.grow e.ip)) hrun :)

end Sys2Proof.Machine
end

section
/-! PROOFS. Family other: the host's commands (40_engine R63, R64, R71, R72; 60_exceptions R92, R97;
70_reset_and_hazards R106, R107). -/

namespace Sys2Proof.Machine

section

variable {s : State} {cmd : Command} {rest : List Command}

/-- With no run in progress a step performs the next command (R71). -/
theorem step_command (hr : s.running = none) (hc : s.commands = cmd :: rest) :
    step s = .next (State.perform { s with commands := rest } cmd) := by
  rw [step_idle hr, hostTurn, hc]

/-- A command that only reports a result answers it. -/
theorem answered_report (s : State) (rest : List Command) (res : Result) :
    Answered s rest res (State.report { s with commands := rest } res) := ⟨rfl, rfl, rfl, rfl, rfl, rfl⟩

/-- A command that comes to a report and nothing else is answered with it. -/
theorem step_answered (hr : s.running = none) (hc : s.commands = cmd :: rest) {res : Result}
    (hp : State.perform { s with commands := rest } cmd = State.report { s with commands := rest } res) :
    ∃ s', step s = .next s' ∧ Answered s rest res s' :=
  ⟨_, (step_command hr hc).trans (congrArg _ hp), answered_report ..⟩

variable {h : Nat}

theorem cmdPush_of_push {ch ch' : Channel} {v : Int} (hch : s.channels[h]? = some ch) (hv : Fits s.cfg.cellBits v)
    (hp : ch.push s.cfg v = some ch') : s.cmdPush h v = (s.setChannel h ch').report .ok := by
  simp only [State.cmdPush, hch, if_pos hv, hp]

theorem cmdPush_full {ch : Channel} {v : Int} (hch : s.channels[h]? = some ch) (hv : Fits s.cfg.cellBits v)
    (hp : ch.push s.cfg v = none) : s.cmdPush h v = s.report (.hostFault .channelOverflow) := by
  simp only [State.cmdPush, hch, if_pos hv, hp]

/-- A value out of range is refused (log 8). -/
theorem cmdPush_refused {ch : Channel} {v : Int} (hch : s.channels[h]? = some ch) (hv : ¬ Fits s.cfg.cellBits v) :
    s.cmdPush h v = s.report .refused := by
  simp only [State.cmdPush, hch, if_neg hv]

theorem cmdPop_of_pop {ch ch' : Channel} {v : Int} (hch : s.channels[h]? = some ch)
    (hp : ch.pop s.cfg = some (v, ch')) : s.cmdPop h = (s.setChannel h ch').report (.value v) := by
  simp only [State.cmdPop, hch, hp]

theorem cmdPop_empty {ch : Channel} (hch : s.channels[h]? = some ch) (hp : ch.pop s.cfg = none) :
    s.cmdPop h = s.report (.hostFault .channelUnderflow) := by
  simp only [State.cmdPop, hch, hp]

theorem cmdContents_eq {ch : Channel} (hch : s.channels[h]? = some ch) :
    s.cmdContents h = s.report (.contents ch.contents) := by
  simp only [State.cmdContents, hch]

theorem cmdNew_of_construct {text : List Char} {e : Engine} (hn : construct s.cfg text = .ok e) :
    s.cmdNew text = State.report { s with engines := s.engines ++ [some e] } (.engine s.engines.length) := by
  simp only [State.cmdNew, hn]

theorem cmdNew_fails {text : List Char} {f : HostFault} (hn : construct s.cfg text = .error f) :
    s.cmdNew text = s.report (.hostFault f) := by
  simp only [State.cmdNew, hn]

section

variable {e : Engine} (he : s.engine? h = some e)
include he

theorem cmdDiscard_eq : s.cmdDiscard h = State.report { s with engines := s.engines.set h none } .ok := by
  simp only [State.cmdDiscard, he]

theorem cmdReadMem_eq {a : Int} (ha : 0 ≤ a) : s.cmdReadMem h a = s.report (.value (e.mem.read a.toNat)) := by
  simp only [State.cmdReadMem, he, if_neg (Int.not_lt.2 ha)]

theorem cmdReadMem_refused {a : Int} (ha : a < 0) : s.cmdReadMem h a = s.report .refused := by
  simp only [State.cmdReadMem, he, if_pos ha]

variable {inp out : Nat} (hi : inp < s.channels.length) (ho : out < s.channels.length)
include hi ho

theorem cmdRun_halted (hst : e.status = .halted) : s.cmdRun h inp out = s.report (.signal sigHalt) := by
  simp only [State.cmdRun, he, List.getElem?_eq_getElem hi, List.getElem?_eq_getElem ho, hst]

theorem cmdRun_faulted {f : FaultRecord} (hst : e.status = .faulted f) : s.cmdRun h inp out = s.report (.fault f) := by
  simp only [State.cmdRun, he, List.getElem?_eq_getElem hi, List.getElem?_eq_getElem ho, hst]

/-- A Running or suspended Engine is resumed (R64). -/
theorem cmdRun_resumes (hst : e.status = .running ∨ e.status = .suspendedOnInput ∨ e.status = .suspendedOnOutput) :
    s.cmdRun h inp out = { s.setEngine h { e with status := .running } with running := some ⟨h, inp, out⟩ } := by
  rcases hst with hst | hst | hst <;>
    simp only [State.cmdRun, he, List.getElem?_eq_getElem hi, List.getElem?_eq_getElem ho, hst]

end

end

/-! ## Channels -/

/-- Settles O53. -/
theorem newChannelIsEmptyWithItsFlag : Obligations.NewChannelIsEmptyWithItsFlag := by
  intro s b rest hr hc
  exact ⟨_, step_command hr hc, rfl, rfl, rfl, hr, rfl, rfl⟩

/-- Settles O54, by whether the channel is full. -/
theorem pushAppendsOrOverflows : Obligations.PushAppendsOrOverflows := by
  intro s h v rest ch hr hc hch hv
  refine ⟨fun hf => ?appends, fun hf => ?overflows⟩
  case appends =>
    have hp : ch.push s.cfg v = some { ch with contents := ch.contents ++ [v] } := by simp [Channel.push, hf]
    have hdo := cmdPush_of_push (s := { s with commands := rest }) hch hv hp
    exact ⟨_, (step_command hr hc).trans (congrArg _ hdo), rfl, rfl, rfl, hr, rfl, rfl⟩
  case overflows =>
    have hp : ch.push s.cfg v = none := by simp [Channel.push, hf]
    exact step_answered hr hc (cmdPush_full (s := { s with commands := rest }) hch hv hp)

/-- Settles O55, by whether the channel is empty. -/
theorem popCommandReturnsOrUnderflows : Obligations.PopCommandReturnsOrUnderflows := by
  intro s h rest ch hr hc hch
  refine ⟨fun v ch' hp => ?returns, fun hempty => ?underflows⟩
  case returns =>
    have hdo := cmdPop_of_pop (s := { s with commands := rest }) hch hp
    exact ⟨_, (step_command hr hc).trans (congrArg _ hdo), rfl, rfl, rfl, hr, rfl, rfl⟩
  case underflows => exact step_answered hr hc (cmdPop_empty (s := { s with commands := rest }) hch (pop_none.2 hempty))

/-! ## Engines -/

/-- Settles O56, by the Engine's status. -/
theorem runEntryResumesOrAnswersAtOnce : Obligations.RunEntryResumesOrAnswersAtOnce := by
  intro s h inp out rest e hr hc he hi ho
  refine ⟨fun hst => ?halted, fun f hst => ?faulted, fun hst => ?resumes⟩
  case halted => exact step_answered hr hc (cmdRun_halted (s := { s with commands := rest }) he hi ho hst)
  case faulted => exact step_answered hr hc (cmdRun_faulted (s := { s with commands := rest }) he hi ho hst)
  case resumes =>
    have hdo := cmdRun_resumes (s := { s with commands := rest }) he hi ho hst
    exact ⟨_, (step_command hr hc).trans (congrArg _ hdo), active_eq_some.2 ⟨rfl, engine?_setEngine_self he _⟩,
      fun k hk => engine?_setEngine_ne (s := s) hk _, rfl, rfl, rfl, rfl⟩

/-- Settles O57, by the sign of the address. -/
theorem readMemObservesWithoutChange : Obligations.ReadMemObservesWithoutChange := by
  intro s h a rest e hr hc he
  exact ⟨fun ha => step_answered hr hc (cmdReadMem_eq (s := { s with commands := rest }) he ha),
    fun ha => step_answered hr hc (cmdReadMem_refused (s := { s with commands := rest }) he ha)⟩

/-- Settles O58. -/
theorem contentsListsAndDiscardRemoves : Obligations.ContentsListsAndDiscardRemoves := by
  refine ⟨fun s h rest ch hr hc hch => ?contents, fun s h rest e hr hc he => ?discard⟩
  case contents => exact step_answered hr hc (cmdContents_eq (s := { s with commands := rest }) hch)
  case discard =>
    have hdo := cmdDiscard_eq (s := { s with commands := rest }) he
    exact ⟨_, (step_command hr hc).trans (congrArg _ hdo), engine?_set_none_self s h,
      fun k hk => engine?_set_none_ne s hk, rfl, rfl, hr, rfl, rfl⟩

/-- Settles O49: the new memory is the words' memory from address 0. -/
theorem newConstructsAnEngineAtReset : Obligations.NewConstructsAnEngineAtReset := by
  intro s text rest vs hr hc hp hl
  have hn : construct s.cfg text = .ok (Engine.construct vs) := by simp only [construct, hp, hl, if_true]
  have hread (a : Nat) : (Engine.construct vs).mem.read a = vs.getD a 0 := by
    refine (Memory.read_ofWords vs 0 a).trans ?_
    rw [if_pos (Nat.zero_le a), Nat.sub_zero]
  have hdo := cmdNew_of_construct (s := { s with commands := rest }) hn
  exact ⟨_, Engine.construct vs, (step_command hr hc).trans (congrArg _ hdo), rfl, hread, Memory.ofWords_wf vs 0,
    rfl, rfl, rfl, rfl, rfl, rfl, rfl, hr, rfl⟩

/-! ## Fault codes -/

/-- Settles O59: the tables are evaluated. -/
theorem faultCodesAreTheTables : Obligations.FaultCodesAreTheTables :=
  ⟨rfl, rfl, fun _ _ => rfl, fun _ => rfl, fun _ => rfl, fun _ => rfl, rfl, rfl, fun _ => rfl, fun _ => rfl, rfl, rfl⟩

/-! ## A word placed after reset -/

/-- The cells placed at `ip` 0 of an empty memory are what is read there. -/
theorem read_place_reset (cells : List Int) (a : Nat) : (Memory.writeMany [] 0 cells).read a = cells.getD a 0 := by
  rw [Memory.read_writeMany cells ⟨List.Pairwise.nil, nofun⟩]
  by_cases ha : a < cells.length <;> simp [ha, Memory.read]

theorem decode_of_decodeTableWord {nbits w : Nat} {i : Instr} (h : decodeTableWord nbits w = some i) :
    decode (tableCells nbits w) = .ok i := by
  rw [decodeTableWord] at h
  split at h
  · cases h
    assumption
  · cases h

/-- After the placing, Engine 0 is Running in a run over channels 0 and 1, with the cells in its memory. -/
theorem active_withFetchWord_reset (nbits w : Nat) :
    ∃ e, (State.reset.withFetchWord nbits w).active = some (⟨0, 0, 1⟩, e) ∧
      e.mem = Memory.writeMany [] 0 (tableCells nbits w) ∧ e.ip = 0 ∧ e.rb = 0 ∧ e.status = .running :=
  ⟨_, rfl, rfl, rfl, rfl, rfl⟩

/-- Settles O60: the placed cells are the ones the step decodes. -/
theorem placedTableWordRunsNext : Obligations.PlacedTableWordRunsNext := by
  intro nbits w i hi
  obtain ⟨e, ha, hmem, hip, hrb, hst⟩ := active_withFetchWord_reset nbits w
  have hd : decodeWith (e.mem.read e.ip) (fun k => e.mem.read (e.ip + k)) = .ok i := by
    simp only [hmem, hip, Nat.zero_add, read_place_reset]
    exact decode_of_decodeTableWord hi
  exact ⟨_, e.grow e.ip, step_of_decodes ha rfl hd, active_goOn ha _, hip, hrb, hst⟩

end Sys2Proof.Machine
end

section
/-! PROOFS. Family other: program text (70_reset_and_hazards R105; 60_exceptions R97). -/

namespace Sys2Proof.Machine

/-! ## Tokens between commas -/

/-- A text without a comma is one token. -/
theorem splitCommas_of_notMem {t : List Char} (h : ',' ∉ t) : splitCommas t = [t] := by
  induction t with
  | nil => rfl
  | cons ch t ih =>
    obtain ⟨hch, ht⟩ := not_or.1 (List.mem_cons.not.1 h)
    rw [splitCommas, if_neg (Ne.symm hch), ih ht]

/-- The first comma ends the first token. -/
theorem splitCommas_append_comma {t : List Char} (h : ',' ∉ t) (rest : List Char) :
    splitCommas (t ++ ',' :: rest) = t :: splitCommas rest := by
  induction t with
  | nil => rfl
  | cons ch t ih =>
    obtain ⟨hch, ht⟩ := not_or.1 (List.mem_cons.not.1 h)
    rw [List.cons_append, splitCommas, if_neg (Ne.symm hch), ih ht]

/-- Settles O51, by induction on the tokens. -/
theorem programTextSplitsAtItsCommas : Obligations.ProgramTextSplitsAtItsCommas := by
  intro toks hne hcomma
  induction toks with
  | nil => exact absurd rfl hne
  | cons t ts ih =>
    obtain ⟨ht, hts⟩ := List.forall_mem_cons.1 hcomma
    cases ts with
    | nil => simpa using splitCommas_of_notMem ht
    | cons u us =>
      have hjoin : List.intercalate [','] (t :: u :: us) = t ++ ',' :: List.intercalate [','] (u :: us) := by
        simp [List.intercalate]
      rw [hjoin, splitCommas_append_comma ht, ih (List.cons_ne_nil u us) hts]

/-! ## Parsing token by token -/

/-- `j` is the least index of a token that does not parse. -/
def FirstBadToken (w : Nat) (ts : List (List Char)) (j : Nat) : Prop :=
  (∃ t, ts[j]? = some t ∧ parseToken w t = none) ∧ ∀ k t, k < j → ts[k]? = some t → parseToken w t ≠ none

/-- A first token that does not parse is the first bad one. -/
theorem firstBadToken_of_bad {w : Nat} {t : List Char} {ts : List (List Char)} (h : parseToken w t = none) {j : Nat} :
    FirstBadToken w (t :: ts) j ↔ j = 0 := by
  constructor
  · rintro ⟨-, hbefore⟩
    exact Nat.eq_zero_of_not_pos fun hj => hbefore 0 t hj rfl h
  · rintro rfl
    exact ⟨⟨t, rfl, h⟩, fun k _ hk => absurd hk (Nat.not_lt_zero k)⟩

/-- After a first token that parses, the first bad one is the first bad one of the others. -/
theorem firstBadToken_of_good {w : Nat} {t : List Char} {ts : List (List Char)} {v : Int}
    (h : parseToken w t = some v) {j : Nat} : FirstBadToken w (t :: ts) j ↔ ∃ k, j = k + 1 ∧ FirstBadToken w ts k := by
  constructor
  · rintro ⟨⟨u, hu, hbad⟩, hbefore⟩
    cases j with
    | zero =>
      cases hu
      cases h.symm.trans hbad
    | succ k => exact ⟨k, rfl, ⟨u, hu, hbad⟩, fun m x hm hx => hbefore (m + 1) x (Nat.succ_lt_succ hm) hx⟩
  · rintro ⟨k, rfl, ⟨u, hu, hbad⟩, hbefore⟩
    refine ⟨⟨u, hu, hbad⟩, fun m x hm hx => ?_⟩
    cases m with
    | zero =>
      cases hx
      simp [h]
    | succ m => exact hbefore m x (Nat.lt_of_succ_lt_succ hm) hx

section

variable {w b : Nat} {t : List Char} {ts : List (List Char)}

/-- A first token that does not parse fails the text. -/
theorem parseTokens_of_bad (h : parseToken w t = none) : parseTokens w b (t :: ts) = .error b := by
  simp only [parseTokens, h]

/-- After a first token that parses, the others decide. -/
theorem parseTokens_of_good {v : Int} (h : parseToken w t = some v) :
    (∀ vs, parseTokens w b (t :: ts) = .ok vs ↔ ∃ us, vs = v :: us ∧ parseTokens w (b + 1) ts = .ok us) ∧
    ∀ j, parseTokens w b (t :: ts) = .error j ↔ parseTokens w (b + 1) ts = .error j := by
  simp only [parseTokens, h]
  cases parseTokens w (b + 1) ts with
  | ok us => simp [eq_comm]
  | error k => simp

end

/-- Tokens parse exactly when each of them does, to their values in order (R105). -/
theorem parseTokens_eq_ok {w : Nat} {ts : List (List Char)} {b : Nat} {vs : List Int} :
    parseTokens w b ts = .ok vs ↔ ts.map (parseToken w) = vs.map some := by
  induction ts generalizing b vs with
  | nil => cases vs <;> simp [parseTokens]
  | cons t ts ih =>
    cases ht : parseToken w t with
    | none => cases vs <;> simp [parseTokens_of_bad ht, ht]
    | some v =>
      cases vs with
      | nil => simp [(parseTokens_of_good ht).1, ht]
      | cons u us => simp [(parseTokens_of_good ht).1, ih, ht, eq_comm (a := v)]

/-- Parsing fails exactly at the first token that does not parse, counted from `b` (R105). -/
theorem parseTokens_eq_error {w : Nat} {ts : List (List Char)} {b j : Nat} :
    parseTokens w b ts = .error j ↔ ∃ k, j = b + k ∧ FirstBadToken w ts k := by
  induction ts generalizing b with
  | nil => exact ⟨nofun, fun ⟨_, _, ⟨_, ht, _⟩, _⟩ => nomatch ht⟩
  | cons t ts ih =>
    cases ht : parseToken w t with
    | none => simp [parseTokens_of_bad ht, firstBadToken_of_bad ht, eq_comm]
    | some v =>
      rw [(parseTokens_of_good ht).2, ih]
      simp only [firstBadToken_of_good ht]
      constructor
      · rintro ⟨k, rfl, hk⟩
        exact ⟨k + 1, by omega, k, rfl, hk⟩
      · rintro ⟨_, rfl, k, rfl, hk⟩
        exact ⟨k, by omega, hk⟩

/-- A text fails to parse exactly at its first bad token. -/
theorem parseText_eq_error {w : Nat} {text : List Char} {j : Nat} :
    parseText w text = .error j ↔ FirstBadToken w (splitCommas text) j := by
  simp [parseText, parseTokens_eq_error]

/-- Settles O50: `NEW` reports the index parsing failed at, or the address of the last integer. -/
theorem newFailsWithoutAnEngine : Obligations.NewFailsWithoutAnEngine := by
  intro s text rest hr hc
  refine ⟨fun vs => parseTokens_eq_ok, fun j => parseText_eq_error, fun j hp => ?malformed, fun vs hp hl => ?tooLong⟩
  case malformed =>
    have hn : construct s.cfg text = .error (.malformedProgramText j) := by simp only [construct, hp]
    exact step_answered hr hc (cmdNew_fails (s := { s with commands := rest }) hn)
  case tooLong =>
    have hn : construct s.cfg text = .error (.capacity (vs.length - 1)) := by simp [construct, hp, hl]
    exact step_answered hr hc (cmdNew_fails (s := { s with commands := rest }) hn)

/-! ## One token -/

/-- The character of a decimal digit. -/
def digitChar (d : Fin 10) : Char := Char.ofNat (48 + d.val)

/-- The value of decimal digits after digits worth `acc`. -/
def digitsValue (acc : Nat) (ds : List (Fin 10)) : Nat := ds.foldl (fun n d => 10 * n + d.val) acc

theorem digitValue_digitChar (d : Fin 10) : digitValue (digitChar d) = some d.val := by
  revert d
  decide

/-- Only the ten digits have a digit's value. -/
theorem eq_digitChar_of_digitValue {ch : Char} {n : Nat} (h : digitValue ch = some n) :
    ∃ d : Fin 10, ch = digitChar d ∧ n = d.val := by
  rw [digitValue] at h
  split at h
  next hrange =>
    cases h
    have h0 : '0'.toNat = 48 := rfl
    have h9 : '9'.toNat = 57 := rfl
    rw [h0, h9] at hrange
    refine ⟨⟨ch.toNat - 48, by omega⟩, ?_, rfl⟩
    rw [digitChar, show 48 + (ch.toNat - 48) = ch.toNat by omega, Char.ofNat_toNat]
  next => cases h

/-- Decimal digits, and nothing else, have a value (R105). -/
theorem digitsFrom_eq_some {cs : List Char} {acc n : Nat} :
    digitsFrom acc cs = some n ↔ ∃ ds : List (Fin 10), cs = ds.map digitChar ∧ n = digitsValue acc ds := by
  induction cs generalizing acc with
  | nil => 
    constructor
    · intro h
      cases h
      exact ⟨[], rfl, rfl⟩
    · rintro ⟨ds, hds, rfl⟩
      rw [List.map_eq_nil_iff.1 hds.symm]
      rfl
  | cons ch cs ih =>
    constructor
    · intro h
      rw [digitsFrom] at h
      split at h
      · cases h
      next d hd =>
        obtain ⟨d, rfl, rfl⟩ := eq_digitChar_of_digitValue hd
        obtain ⟨ds, rfl, rfl⟩ := ih.1 h
        exact ⟨d :: ds, rfl, rfl⟩
    · rintro ⟨ds, hds, rfl⟩
      obtain ⟨d, ds, rfl, rfl, rfl⟩ := List.map_eq_cons_iff.1 hds.symm
      rw [digitsFrom, digitValue_digitChar]
      exact ih.2 ⟨ds, rfl, rfl⟩

/-- At least one decimal digit, and nothing else, is a natural number (R105). -/
theorem natural_eq_some {cs : List Char} {n : Nat} :
    natural cs = some n ↔ ∃ ds : List (Fin 10), ds ≠ [] ∧ cs = ds.map digitChar ∧ n = digitsValue 0 ds := by
  cases cs with
  | nil => simp [natural]
  | cons ch cs =>
    rw [natural, List.isEmpty_cons, if_neg Bool.false_ne_true, digitsFrom_eq_some]
    refine exists_congr fun ds => (and_iff_right_of_imp ?_).symm
    rintro ⟨h, -⟩ rfl
    cases h

/-- `body` is a sign at most and at least one decimal digit, worth `v`. -/
def IsSignedDecimal (body : List Char) (v : Int) : Prop :=
  ∃ (sign : List Char) (ds : List (Fin 10)), body = sign ++ ds.map digitChar ∧ ds ≠ [] ∧
    ((sign = [] ∨ sign = ['+']) ∧ v = digitsValue 0 ds ∨ sign = ['-'] ∧ v = -(digitsValue 0 ds : Int))

theorem digitChar_ne_sign (d : Fin 10) : digitChar d ≠ '+' ∧ digitChar d ≠ '-' := by
  revert d
  decide

/-- `[+-]?[0-9]+` and its value (R105). -/
theorem signedInteger_eq_some {body : List Char} {v : Int} :
    signedInteger body = some v ↔ IsSignedDecimal body v := by
  constructor
  · intro h
    cases body with
    | nil => cases h
    | cons ch cs =>
      rw [signedInteger] at h
      split at h
      next hplus =>
        obtain ⟨n, hn, rfl⟩ := Option.map_eq_some_iff.1 h
        obtain ⟨ds, hne, rfl, rfl⟩ := natural_eq_some.1 hn
        exact ⟨['+'], ds, by rw [hplus]; rfl, hne, .inl ⟨.inr rfl, rfl⟩⟩
      next =>
        split at h
        next hminus =>
          obtain ⟨n, hn, rfl⟩ := Option.map_eq_some_iff.1 h
          obtain ⟨ds, hne, rfl, rfl⟩ := natural_eq_some.1 hn
          exact ⟨['-'], ds, by rw [hminus]; rfl, hne, .inr ⟨rfl, Int.negOfNat_eq⟩⟩
        next =>
          obtain ⟨n, hn, rfl⟩ := Option.map_eq_some_iff.1 h
          obtain ⟨ds, hne, hcs, rfl⟩ := natural_eq_some.1 hn
          exact ⟨[], ds, hcs, hne, .inl ⟨.inl rfl, rfl⟩⟩
  · rintro ⟨sign, ds, rfl, hne, hv⟩
    have hn : natural (ds.map digitChar) = some (digitsValue 0 ds) := natural_eq_some.2 ⟨ds, hne, rfl, rfl⟩
    rcases hv with ⟨rfl | rfl, rfl⟩ | ⟨rfl, rfl⟩
    · obtain ⟨d, ds, rfl⟩ := List.exists_cons_of_ne_nil hne
      obtain ⟨hplus, hminus⟩ := digitChar_ne_sign d
      rw [List.nil_append, List.map_cons, signedInteger, if_neg hplus, if_neg hminus, ← List.map_cons, hn]
      rfl
    · rw [List.singleton_append, signedInteger, if_pos rfl, hn]
      rfl
    · rw [List.singleton_append, signedInteger, if_neg (by decide), if_pos rfl, hn]
      exact congrArg some Int.negOfNat_eq

/-! ## Whitespace -/

theorem isSpace_iff {ch : Char} : isSpace ch = true ↔ ch ∈ [' ', '\t', '\r', '\n'] := by
  simp [isSpace, or_assoc]

/-- Whitespace is dropped up to the first other character. -/
theorem dropSpaces_append {pre rest : List Char} (hpre : ∀ ch ∈ pre, isSpace ch = true)
    (hrest : ∀ ch ∈ rest.head?, isSpace ch = false) : (pre ++ rest).dropWhile isSpace = rest := by
  rw [List.dropWhile_append_of_pos hpre]
  cases rest with
  | nil => rfl
  | cons ch cs => rw [List.dropWhile_cons_of_neg (by simp [hrest ch rfl])]

/-- Trimming leaves the part between the whitespace. -/
theorem trimSpaces_eq {pre body post : List Char} (hne : body ≠ []) (hpre : ∀ ch ∈ pre, isSpace ch = true)
    (hbody : ∀ ch ∈ body, isSpace ch = false) (hpost : ∀ ch ∈ post, isSpace ch = true) :
    trimSpaces (pre ++ body ++ post) = body := by
  have hfront : (pre ++ body ++ post).dropWhile isSpace = body ++ post := by
    rw [List.append_assoc]
    refine dropSpaces_append hpre fun ch hch => hbody ch ?_
    rw [List.head?_append_of_ne_nil _ hne] at hch
    exact List.mem_of_mem_head? hch
  have hback : (post.reverse ++ body.reverse).dropWhile isSpace = body.reverse :=
    dropSpaces_append (fun ch hch => hpost ch (List.mem_reverse.1 hch)) fun ch hch =>
      hbody ch (List.mem_reverse.1 (List.mem_of_mem_head? hch))
  rw [trimSpaces, hfront, List.reverse_append, hback, List.reverse_reverse]

/-- What trimming takes away is whitespace at the two ends. -/
theorem exists_trimSpaces (t : List Char) : ∃ pre post, t = pre ++ trimSpaces t ++ post ∧
    (∀ ch ∈ pre, isSpace ch = true) ∧ ∀ ch ∈ post, isSpace ch = true := by
  refine ⟨t.takeWhile isSpace, ((t.dropWhile isSpace).reverse.takeWhile isSpace).reverse, ?_,
    fun ch hch => List.mem_takeWhile_imp hch, fun ch hch => List.mem_takeWhile_imp (List.mem_reverse.1 hch)⟩
  rw [trimSpaces, List.append_assoc, ← List.reverse_append, List.takeWhile_append_dropWhile, List.reverse_reverse,
    List.takeWhile_append_dropWhile]

/-- A sign and digits are no whitespace. -/
theorem IsSignedDecimal.noSpace {body : List Char} {v : Int} (h : IsSignedDecimal body v) :
    body ≠ [] ∧ ∀ ch ∈ body, isSpace ch = false := by
  have hdigit : ∀ d : Fin 10, isSpace (digitChar d) = false := by decide
  obtain ⟨sign, ds, rfl, hne, hv⟩ := h
  refine ⟨by simp [hne], fun ch hch => ?_⟩
  rcases List.mem_append.1 hch with hch | hch
  · have hsign : ch = '+' ∨ ch = '-' := by
      rcases hv with ⟨rfl | rfl, -⟩ | ⟨rfl, -⟩ <;> simp_all
    rcases hsign with rfl | rfl <;> rfl
  · obtain ⟨d, -, rfl⟩ := List.mem_map.1 hch
    exact hdigit d

/-- A token parses to the representable value of the signed decimal that trimming leaves (R105). -/
theorem parseToken_eq_some {w : Nat} {t : List Char} {v : Int} :
    parseToken w t = some v ↔ Fits w v ∧ IsSignedDecimal (trimSpaces t) v := by
  rw [← signedInteger_eq_some, parseToken]
  cases signedInteger (trimSpaces t) with
  | none => simp
  | some u =>
    by_cases hu : Fits w u
    · simp only [if_pos hu, Option.some.injEq]
      exact ⟨fun h => ⟨h ▸ hu, h⟩, fun h => h.2⟩
    · simp only [if_neg hu, Option.some.injEq]
      exact ⟨nofun, fun ⟨hv, h⟩ => absurd (h ▸ hv) hu⟩

/-- Settles O52: trimming takes away the whitespace and leaves sign and digits. -/
theorem tokensAreSignedDecimals : Obligations.TokensAreSignedDecimals := by
  intro w t v
  rw [parseToken_eq_some]
  refine and_congr_right fun _ => ⟨fun h => ?_, ?_⟩
  · obtain ⟨pre, post, ht, hpre, hpost⟩ := exists_trimSpaces t
    obtain ⟨sign, ds, hbody, hne, hv⟩ := h
    rw [hbody, ← List.append_assoc] at ht
    refine ⟨pre, post, sign, ds, ht, hne, fun ch hch => isSpace_iff.1 ?_, hv⟩
    exact (List.mem_append.1 hch).elim (hpre ch) (hpost ch)
  · rintro ⟨pre, post, sign, ds, rfl, hne, hspace, hv⟩
    have hbody : IsSignedDecimal (sign ++ ds.map digitChar) v := ⟨sign, ds, rfl, hne, hv⟩
    obtain ⟨hnonempty, hnoSpace⟩ := hbody.noSpace
    have htrim := trimSpaces_eq hnonempty (fun ch hch => isSpace_iff.2 (hspace ch (List.mem_append_left _ hch)))
      hnoSpace (fun ch hch => isSpace_iff.2 (hspace ch (List.mem_append_right _ hch)))
    rw [← List.append_assoc] at htrim
    exact htrim.symm ▸ hbody

end Sys2Proof.Machine
end

section
/-! PROOFS. Family other: what every step keeps (00_scope R5, R10, R12; 10_state; 40_engine R64, R68;
60_exceptions R95, R97). -/

namespace Sys2Proof.Machine

/-! ## What a command can do -/

/-- Every state a command of the host can lead to (40_engine R71). -/
inductive Performs (s : State) : State → Prop where
  /-- a result and nothing else: an observation, a fault or a refusal -/
  | reports (res : Result) : Performs s (s.report res)
  /-- `NEW` constructs an Engine -/
  | engine {text : List Char} {e : Engine} (made : construct s.cfg text = .ok e) :
      Performs s (State.report { s with engines := s.engines ++ [some e] } (.engine s.engines.length))
  /-- `NEW_CHANNEL` -/
  | channel (b : Bool) :
      Performs s (State.report { s with channels := s.channels ++ [⟨[], b⟩] } (.channel s.channels.length))
  /-- `PUSH` of a representable value onto a channel that is not full -/
  | push {c : Nat} {ch ch' : Channel} {v : Int} (chan : s.channels[c]? = some ch) (fits : Fits s.cfg.cellBits v)
      (pushed : ch.push s.cfg v = some ch') : Performs s ((s.setChannel c ch').report .ok)
  /-- `POP` of a channel that is not empty -/
  | pop {c : Nat} {ch ch' : Channel} {v : Int} (chan : s.channels[c]? = some ch)
      (popped : ch.pop s.cfg = some (v, ch')) : Performs s ((s.setChannel c ch').report (.value v))
  /-- `RUN` resumes an Engine -/
  | run {h inp out : Nat} {e : Engine} (live : s.engine? h = some e) (inpLt : inp < s.channels.length)
      (outLt : out < s.channels.length) :
      Performs s { s.setEngine h { e with status := .running } with running := some ⟨h, inp, out⟩ }
  /-- `DISCARD` -/
  | discard (h : Nat) : Performs s (State.report { s with engines := s.engines.set h none } .ok)

section

variable (s : State)

theorem performs_cmdPush (c : Nat) (v : Int) : Performs s (s.cmdPush c v) := by
  unfold State.cmdPush
  split
  · exact .reports _
  next hch =>
    split
    next hv =>
      split
      · exact .reports _
      next hp => exact .push hch hv hp
    · exact .reports _

theorem performs_cmdPop (c : Nat) : Performs s (s.cmdPop c) := by
  unfold State.cmdPop
  split
  · exact .reports _
  next hch =>
    split
    · exact .reports _
    next hp => exact .pop hch hp

theorem performs_cmdRun (h inp out : Nat) : Performs s (s.cmdRun h inp out) := by
  unfold State.cmdRun
  split
  next he hi ho =>
    have resumed := Performs.run he (List.getElem?_eq_some_iff.1 hi).1 (List.getElem?_eq_some_iff.1 ho).1
    split
    · exact .reports _
    · exact .reports _
    all_goals exact resumed
  · exact .reports _

theorem performs_cmdReadMem (h : Nat) (a : Int) : Performs s (s.cmdReadMem h a) := by
  unfold State.cmdReadMem
  split
  · exact .reports _
  · split <;> exact .reports _

/-- Whatever the command, the state after it is one of those listed. -/
theorem performs_perform (cmd : Command) : Performs s (s.perform cmd) := by
  cases cmd with
  | new text =>
    simp only [State.perform, State.cmdNew]
    split
    · exact .reports _
    next hn => exact .engine hn
  | newChannel b => exact .channel b
  | push c v => exact performs_cmdPush s c v
  | pop c => exact performs_cmdPop s c
  | contents c =>
    simp only [State.perform, State.cmdContents]
    split <;> exact .reports _
  | run h inp out => exact performs_cmdRun s h inp out
  | readMem h a => exact performs_cmdReadMem s h a
  | discard h =>
    simp only [State.perform, State.cmdDiscard]
    split
    · exact .reports _
    · exact .discard h

/-- The host's turn: nothing, or a command taken and performed. -/
theorem hostTurn_cases : hostTurn s = s ∨ ∃ rest, Performs { s with commands := rest } (hostTurn s) := by
  unfold hostTurn
  cases s.commands with
  | nil => exact .inl rfl
  | cons cmd rest => exact .inr ⟨rest, performs_perform _ cmd⟩

end

/-! ## Parameters and blocking flags -/

/-- `s'` has the parameters of `s` and every channel of `s`, with its flag. -/
def KeepsFlags (s s' : State) : Prop :=
  s'.cfg = s.cfg ∧ ∀ (c : Nat) (ch : Channel), s.channels[c]? = some ch →
    ∃ ch', s'.channels[c]? = some ch' ∧ ch'.blocking = ch.blocking

section

variable {s s' : State} {c : Nat} {ch ch' : Channel}

theorem KeepsFlags.of_eq (hcfg : s'.cfg = s.cfg) (hchan : s'.channels = s.channels) : KeepsFlags s s' :=
  ⟨hcfg, fun _ ch h => ⟨ch, hchan ▸ h, rfl⟩⟩

/-- A channel put back with its flag. -/
theorem KeepsFlags.of_set (hcfg : s'.cfg = s.cfg) (hchan : s'.channels = s.channels.set c ch')
    (hch : s.channels[c]? = some ch) (hb : ch'.blocking = ch.blocking) : KeepsFlags s s' := by
  refine ⟨hcfg, fun k x hx => ?_⟩
  by_cases hk : c = k
  · subst hk
    cases hch.symm.trans hx
    exact ⟨ch', by rw [hchan, List.getElem?_set_self (List.getElem?_eq_some_iff.1 hch).1], hb⟩
  · exact ⟨x, by rw [hchan, List.getElem?_set_ne hk, hx], rfl⟩

/-- A channel appended. -/
theorem KeepsFlags.of_append (hcfg : s'.cfg = s.cfg) (hchan : s'.channels = s.channels ++ [ch']) : KeepsFlags s s' := by
  refine ⟨hcfg, fun k x hx => ⟨x, ?_, rfl⟩⟩
  rw [hchan, List.getElem?_append_left (List.getElem?_eq_some_iff.1 hx).1, hx]

/-- No instruction changes a flag (10_state R24). -/
theorem Effect.keepsFlags {r : Run} {e : Engine} {i : Instr} (h : Effect s r e i s') : KeepsFlags s s' := by
  cases h with
  | fault | alu | jump | base | inputWait | halt => exact .of_eq rfl rfl
  | input _ _ _ chan popped | inputYield _ _ _ chan popped => exact .of_set rfl rfl chan (pop_blocking popped)
  | output _ _ chan pushed | outputYield _ _ chan pushed => exact .of_set rfl rfl chan (push_blocking pushed)

end

/-- No command changes a flag (10_state R24; log 16). -/
theorem Performs.keepsFlags {s s' : State} (h : Performs s s') : KeepsFlags s s' := by
  cases h with
  | reports | engine | run | discard => exact .of_eq rfl rfl
  | channel b => exact .of_append rfl rfl
  | push chan _ pushed => exact .of_set rfl rfl chan (push_blocking pushed)
  | pop chan popped => exact .of_set rfl rfl chan (pop_blocking popped)

/-- A run of no live Engine stops the model (log 9). -/
theorem step_noEngine {s : State} {r : Run} (hr : s.running = some r) (ha : s.active = none) :
    step s = .fault .noRun := by
  simp only [step, hr, fetch, ha]

/-- Settles O37: a step is a command, a fault of the fetch, or an instruction. -/
theorem parametersAndBlockingFlagsAreFixed : Obligations.ParametersAndBlockingFlagsAreFixed := by
  intro s s' hstep
  show KeepsFlags s s'
  cases hr : s.running with
  | none =>
    cases (step_idle hr).symm.trans hstep
    rcases hostTurn_cases s with hsame | ⟨rest, hp⟩
    · rw [hsame]
      exact .of_eq rfl rfl
    · exact hp.keepsFlags
  | some r =>
    cases ha : s.active with
    | none => cases (step_noEngine hr ha).symm.trans hstep
    | some p =>
      obtain ⟨r, e⟩ := p
      rcases step_effect ha hstep with ⟨f, l, -, rfl⟩ | ⟨i, -, -, heff⟩
      · exact .of_eq rfl rfl
      · exact heff.keepsFlags

/-! ## The invariant -/

/-- Settles O38: the one Engine of reset is good, and there is nothing else. -/
theorem invariantHoldsAtReset : Obligations.InvariantHoldsAtReset := by
  have hcfg : Config.reference.Ok := ⟨by decide, by decide, by decide, by decide, nofun⟩
  have only (h : Nat) (e : Engine) (he : State.reset.engine? h = some e) : e = Engine.construct [] := by
    cases h with
    | zero => cases he; rfl
    | succ h => cases he
  refine ⟨hcfg, fun h e he => ?_, nofun, nofun, fun h e he _ _ => ?_⟩
  · rw [only h e he]
    exact ⟨⟨List.Pairwise.nil, nofun⟩, nofun, nofun, rfl, rfl, Config.fits_zero hcfg, nofun⟩
  · rw [only h e he]
    exact ⟨rfl, rfl⟩

section

variable {s s' : State}

/-- A run is begun with a good Engine made Running and with channels that exist (R63, R64). -/
theorem State.Inv.beginRun (h : s.Inv) (hr : s.running = none) {k inp out : Nat} {e : Engine}
    (he : s.engine? k = some e) (hi : inp < s.channels.length) (ho : out < s.channels.length) :
    State.Inv { s.setEngine k { e with status := .running } with running := some ⟨k, inp, out⟩ } where
  cfg := h.cfg
  engines j x hx := by
    by_cases hj : j = k
    · subst hj
      cases (engine?_setEngine_self he _).symm.trans hx
      exact (h.engines j e he).status .running nofun
    · exact h.engines j x ((engine?_setEngine_ne hj _).symm.trans hx)
  channels := h.channels
  run q hq := by
    cases hq
    exact ⟨⟨_, engine?_setEngine_self he _, rfl⟩, hi, ho⟩
  fresh j x hx hst hne := by
    have hj : j ≠ k := (hne _ rfl).symm
    exact h.fresh j x ((engine?_setEngine_ne hj _).symm.trans hx) hst fun q hq => by cases hr.symm.trans hq

/-- Every command keeps the invariant. -/
theorem Performs.inv (h : s.Inv) (hr : s.running = none) (hp : Performs s s') : s'.Inv := by
  have norun {P : Run → Prop} : ∀ q, s.running = some q → P q := fun q hq => by cases hr.symm.trans hq
  cases hp with
  | reports res => exact h.report res
  | engine made =>
    obtain ⟨hok, hip, hrb⟩ := construct_ok h.cfg made
    refine State.Inv.report ?_ _
    refine ⟨h.cfg, fun k x hx => ?_, h.channels, norun, fun k x hx hst _ => ?_⟩
    · rcases engine?_append hx with hx | ⟨-, rfl⟩
      · exact h.engines k x hx
      · exact hok
    · rcases engine?_append hx with hx | ⟨-, rfl⟩
      · exact h.fresh k x hx hst norun
      · exact ⟨hip, hrb⟩
  | channel b =>
    have hempty : Channel.Ok s.cfg ⟨[], b⟩ := ⟨nofun, fun d _ => Nat.zero_le d⟩
    refine State.Inv.report ?_ _
    refine ⟨h.cfg, h.engines, fun ch hch => ?_, norun, h.fresh⟩
    rcases List.mem_append.1 hch with hch | hch
    · exact h.channels ch hch
    · rwa [List.mem_singleton.1 hch]
  | push chan fits pushed =>
    exact (h.setChannel (push_ok (h.channels _ (List.mem_of_getElem? chan)) fits pushed).1).report _
  | pop chan popped =>
    exact (h.setChannel (pop_ok (h.channels _ (List.mem_of_getElem? chan)) popped).2.1).report _
  | run live inpLt outLt => exact h.beginRun hr live inpLt outLt
  | discard k =>
    have kept {j : Nat} {x : Engine} (hx : State.engine? { s with engines := s.engines.set k none } j = some x) :
        s.engine? j = some x := by
      by_cases hj : j = k
      · subst hj
        cases (engine?_set_none_self s j).symm.trans hx
      · exact (engine?_set_none_ne s hj).symm.trans hx
    refine State.Inv.report ?_ _
    exact ⟨h.cfg, fun j x hx => h.engines j x (kept hx), h.channels, norun,
      fun j x hx hst _ => h.fresh j x (kept hx) hst norun⟩

variable {r : Run} {e : Engine}

/-- Taking a fault of a good Engine, grown or not, keeps the invariant. -/
theorem State.Inv.takeFault (h : s.Inv) (ha : s.active = some (r, e)) {l : Nat} (hl : Grown s.cfg e.len l)
    (f : EngineFault) : (s.takeFault r { e with len := l } f).Inv :=
  h.endRun ha (((h.engines _ e (active_eq_some.1 ha).2).len hl).status _ fun _ hf => by cases hf; rfl) nofun

/-- Every instruction whose literal words are representable keeps the invariant. -/
theorem Effect.inv (h : s.Inv) (ha : s.active = some (r, e)) (hrun : e.status = .running) {i : Instr}
    (hlits : ∀ o ∈ i.operands, Fits s.cfg.cellBits o.lit) (heff : Effect s r e i s') : s'.Inv := by
  have hok := h.engines _ e (active_eq_some.1 ha).2
  cases heff with
  | fault grown => exact h.takeFault ha grown _
  | alu _ _ grown addr next fits =>
    exact h.goOn ha (((hok.len grown).store addr (fits h.cfg.bits)).advance hrun next) hrun
  | jump _ grown next => exact h.goOn ha ((hok.len grown).jump hrun next) hrun
  | base grown next fits => exact h.goOn ha (((hok.len grown).jump hrun next).base fits) hrun
  | inputWait grown => exact h.endRun ha ((hok.len grown).status _ nofun) nofun
  | input grown addr next chan popped =>
    obtain ⟨hv, hch', -⟩ := pop_ok (h.channels _ (List.mem_of_getElem? chan)) popped
    exact (h.setChannel hch').goOn ha (((hok.len grown).store addr hv).advance hrun next) hrun
  | inputYield grown addr next chan popped =>
    obtain ⟨hv, hch', -⟩ := pop_ok (h.channels _ (List.mem_of_getElem? chan)) popped
    exact (h.setChannel hch').endRun ha ((((hok.len grown).store addr hv).advance hrun next).status _ nofun) nofun
  | output grown next chan pushed =>
    have hv := operandValue_fits h.cfg hok (hlits _ (List.mem_singleton_self _))
    exact (h.setChannel (push_ok (h.channels _ (List.mem_of_getElem? chan)) hv pushed).1).goOn ha
      ((hok.len grown).advance hrun next) hrun
  | outputYield grown next chan pushed =>
    have hv := operandValue_fits h.cfg hok (hlits _ (List.mem_singleton_self _))
    exact (h.setChannel (push_ok (h.channels _ (List.mem_of_getElem? chan)) hv pushed).1).endRun ha
      (((hok.len grown).advance hrun next).status _ nofun) nofun
  | halt => exact h.endRun ha (hok.status _ nofun) nofun

end

/-- Settles O39: a command keeps the invariant, so does a fault of the fetch, and so does an instruction, whose literal
words were read from memory. -/
theorem everyStepKeepsTheInvariant : Obligations.EveryStepKeepsTheInvariant := by
  intro s s' h hstep
  cases hr : s.running with
  | none =>
    cases (step_idle hr).symm.trans hstep
    rcases hostTurn_cases s with hsame | ⟨rest, hp⟩
    · rwa [hsame]
    · exact hp.inv (h.commands rest) hr
  | some r =>
    obtain ⟨e, ha, hrun⟩ := h.active hr
    have hok := h.engines _ e (active_eq_some.1 ha).2
    rcases step_effect ha hstep with ⟨f, l, hl, rfl⟩ | ⟨i, hd, hg, heff⟩
    · exact h.takeFault ha hl f
    · refine heff.inv (h.goOn ha (hok.len hg) hrun) (active_goOn ha (e.grow e.ip)) hrun fun o ho => ?_
      obtain ⟨k, hk⟩ := decodeWith_lit hd o ho
      rw [hk]
      exact hok.read h.cfg _

/-! ## Progress -/

section

variable {s : State} {r : Run} {e : Engine}

/-- `decodeThen` answers a next state when the execution does: a fault of an operand is one (R95). -/
theorem decodeThen_next {α : Type} (ha : s.active = some (r, e)) (phase : Config → Engine → Access α)
    {k : Run → Engine → α → Out} (hk : ∀ x v, ∃ s', k r x v = .next s') :
    ∃ s', s.decodeThen phase k = .next s' := by
  simp only [State.decodeThen, ha]
  cases phase s.cfg e with
  | ok v x => exact hk x v
  | raise f x => exact ⟨_, rfl⟩

theorem aluOp_next (ha : s.active = some (r, e)) (res : Config → Int → Int → Except EngineFault Int)
    (a b d : Operand) : ∃ s', aluOp res a b d s = .next s' :=
  decodeThen_next ha _ fun x v => by
    cases res s.cfg v.1 v.2.1 <;> exact ⟨_, rfl⟩

theorem branch_next (s : State) (r : Run) (e : Engine) (taken : Bool) (t : Int) :
    ∃ s', branch s r e taken t = .next s' := by
  unfold branch
  split
  · split <;> exact ⟨_, rfl⟩
  · exact ⟨_, rfl⟩

theorem yieldIf_next (s : State) (r : Run) (e : Engine) (ch : Channel) (st : Status) (code : Int) :
    ∃ s', yieldIf s r e ch st code = .next s' := by
  unfold yieldIf
  split <;> exact ⟨_, rfl⟩

theorem execInp_next (ha : s.active = some (r, e)) (hi : r.inp < s.channels.length) (d : Operand) :
    ∃ s', execInp d s = .next s' :=
  decodeThen_next ha _ fun x ea => by
    simp only [List.getElem?_eq_getElem hi]
    split
    · split <;> exact ⟨_, rfl⟩
    · exact yieldIf_next ..

theorem execOut_next (ha : s.active = some (r, e)) (ho : r.out < s.channels.length) (a : Operand) :
    ∃ s', execOut a s = .next s' :=
  decodeThen_next ha _ fun x v => by
    simp only [List.getElem?_eq_getElem ho]
    split
    · exact ⟨_, rfl⟩
    · exact yieldIf_next ..

theorem execArb_next (ha : s.active = some (r, e)) (a : Operand) : ∃ s', execArb a s = .next s' :=
  decodeThen_next ha _ fun x v => by
    cases rbResult s.cfg x.rb v <;> exact ⟨_, rfl⟩

/-- Inside a run over channels that exist, every instruction answers a next state. -/
theorem exec_next (ha : s.active = some (r, e)) (hi : r.inp < s.channels.length) (ho : r.out < s.channels.length)
    (i : Instr) : ∃ s', exec i s = .next s' := by
  cases i with
  | add a b d => exact aluOp_next ha addResult a b d
  | mul a b d => exact aluOp_next ha mulResult a b d
  | lt a b d => exact aluOp_next ha (fun _ => ltResult) a b d
  | eq a b d => exact aluOp_next ha (fun _ => eqResult) a b d
  | jt c t | jf c t => exact decodeThen_next ha _ fun x v => branch_next ..
  | inp d => exact execInp_next ha hi d
  | out a => exact execOut_next ha ho a
  | arb a => exact execArb_next ha a
  | hlt =>
    have hexec : ∃ s', execHlt s = .next s' := decodeThen_next ha noOperand fun _ _ => ⟨_, rfl⟩
    exact hexec

end

/-- Settles O40: the host's turn always ends, and in a run the fetch faults or hands on an instruction, which answers. -/
theorem theMachineNeverStops : Obligations.TheMachineNeverStops := by
  intro s h
  cases hr : s.running with
  | none => exact ⟨_, step_idle hr⟩
  | some r =>
    obtain ⟨e, ha, -⟩ := h.active hr
    have hrun := h.run r hr
    rcases step_run_cases ha rfl with ⟨f, l, -, hstep⟩ | ⟨i, -, -, hstep⟩
    · exact ⟨_, hstep⟩
    · rw [← hstep]
      exact exec_next (active_goOn ha _) hrun.inp hrun.out i

/-! ## A run without end -/

/-- `s'` is in the run `r` of an Engine that is `e` but for the length, with the channels and results of `s`. -/
def AtLoop (s : State) (r : Run) (e : Engine) (s' : State) : Prop :=
  s'.cfg = s.cfg ∧ s'.channels = s.channels ∧ s'.results = s.results ∧ ∃ l, s'.active = some (r, { e with len := l })

/-- A run of the machine begins with its first step. -/
theorem core_run_succ {s s' : State} (h : step s = .next s') (n : Nat) :
    Host.Core.run Sys2Proof.core (n + 1) s = Host.Core.run Sys2Proof.core n s' := by
  have hcore : Sys2Proof.core.step s = .next s' := h
  simp only [Host.Core.run, hcore]

/-- The word 1105 is JT with two immediate operands (R42, R43). -/
theorem decodeWith_1105 (lit : Nat → Int) : decodeWith 1105 lit = .ok (.jt (.imm (lit 1)) (.imm (lit 2))) := rfl

theorem addressable_mono {c : Config} {a b : Nat} (hab : a ≤ b) (h : addressable c b = true) :
    addressable c a = true := by
  unfold addressable at *
  split at h <;> simp_all
  omega

/-- `JT #1, #ip` jumps to itself (42_jumps R83): nothing but the length is new. -/
theorem exec_jt_self {s : State} {r : Run} {e : Engine} (ha : s.active = some (r, e))
    (haddr : addressable s.cfg (e.ip + 2) = true) :
    ∃ l, exec (.jt (.imm 1) (.imm e.ip)) s = .next (s.goOn r { e with len := l }) := by
  have hok (k : Nat) (hk : k ≤ 2) : AddrOk s.cfg ((e.ip + k : Nat) : Int) :=
    ⟨Int.natCast_nonneg _, addressable_mono (Nat.add_le_add_left hk _) haddr⟩
  have hr : ∀ a ∈ readChecks e 1 (.imm 1) ++ readChecks e 2 (.imm e.ip), AddrOk s.cfg a := by
    intro a h
    simp only [readChecks, readAddr, Operand.imm, Option.toList, List.mem_append, List.mem_singleton] at h
    rcases h with rfl | rfl
    · exact hok 1 (by decide)
    · exact hok 2 (by decide)
  exact ⟨_, (jump_ok ha hr).trans (branch_taken (hok 0 (by decide)))⟩

section

variable {s : State} {r : Run} {e : Engine} (hword : e.mem.read e.ip = 1105) (hcond : e.mem.read (e.ip + 1) = 1)
  (htarget : e.mem.read (e.ip + 2) = e.ip) (haddr : addressable s.cfg (e.ip + 2) = true)
include hword hcond htarget haddr

/-- Every step from the loop leads back into it. -/
theorem step_atLoop {s₁ : State} (h : AtLoop s r e s₁) : ∃ s₂, step s₁ = .next s₂ ∧ AtLoop s r e s₂ := by
  obtain ⟨hcfg, hchan, hres, l, ha⟩ := h
  rw [← hcfg] at haddr
  have hd : decodeWith (e.mem.read e.ip) (fun k => e.mem.read (e.ip + k)) = .ok (.jt (.imm 1) (.imm e.ip)) := by
    rw [hword, decodeWith_1105, hcond, htarget]
  have hstep := step_of_decodes ha (addressable_mono (Nat.le_add_right _ 2) haddr) hd
  obtain ⟨l', hjump⟩ := exec_jt_self (active_goOn ha (Engine.grow { e with len := l } e.ip)) haddr
  exact ⟨_, hstep.trans hjump, hcfg, hchan, hres, l', active_goOn (active_goOn ha _) _⟩

/-- So does every number of steps. -/
theorem run_atLoop (n : Nat) {s₁ : State} (h : AtLoop s r e s₁) :
    ∃ s₂, Host.Core.run Sys2Proof.core n s₁ = .next s₂ ∧ AtLoop s r e s₂ := by
  induction n generalizing s₁ with
  | zero => exact ⟨s₁, rfl, h⟩
  | succ n ih =>
    obtain ⟨s₂, hstep, h₂⟩ := step_atLoop hword hcond htarget haddr h
    obtain ⟨s₃, hrun, h₃⟩ := ih h₂
    exact ⟨s₃, (core_run_succ hstep n).trans hrun, h₃⟩

end

/-- Settles O41, by induction on the number of steps. -/
theorem aRunNeedNotEnd : Obligations.ARunNeedNotEnd := by
  intro s r e ha hword hcond htarget haddr n
  obtain ⟨s', hrun, -, hchan, hres, l, ha'⟩ :=
    run_atLoop hword hcond htarget haddr n (s₁ := s) ⟨rfl, rfl, rfl, e.len, ha⟩
  exact ⟨s', _, hrun, ha', rfl, rfl, rfl, rfl, hchan, hres⟩

end Sys2Proof.Machine
end

section
/-! PROOFS. Family other: the hidden length cannot be observed (10_state R22). Each operation is compared between `s` and
`s.forgetLen`, the same state with every length 0. -/

namespace Sys2Proof.Machine

/-- The two outcomes are the same but for the lengths (10_state R22). -/
def Alike (o o' : Out) : Prop := (nextState? o).map State.forgetLen = (nextState? o').map State.forgetLen

section

variable (s : State)

@[simp] theorem forgetLen_cfg : s.forgetLen.cfg = s.cfg := rfl
@[simp] theorem forgetLen_channels : s.forgetLen.channels = s.channels := rfl
@[simp] theorem forgetLen_running : s.forgetLen.running = s.running := rfl
@[simp] theorem forgetLen_commands : s.forgetLen.commands = s.commands := rfl

@[simp] theorem forgetLen_forgetLen : s.forgetLen.forgetLen = s.forgetLen := by
  simp only [State.forgetLen, List.map_map]
  congr 2
  funext x
  cases x <;> rfl

/-- The run in progress does not depend on the lengths. -/
theorem active_forgetLen : s.forgetLen.active = s.active.map fun p => (p.1, p.2.forgetLen) := by
  simp only [State.active, forgetLen_running]
  cases s.running with
  | none => rfl
  | some r =>
    simp only [engine?_forgetLen]
    cases s.engine? r.engine <;> rfl

end

section

variable {s : State} {r : Run} {e e' : Engine}

theorem alike_goOn (h : e.forgetLen = e'.forgetLen := by rfl) :
    Alike (.next (s.goOn r e)) (.next (s.forgetLen.goOn r e')) :=
  congrArg some (by rw [forgetLen_goOn, forgetLen_goOn, forgetLen_forgetLen, h])

theorem alike_endRun (st : Status) (res : Result) (h : e.forgetLen = e'.forgetLen := by rfl) :
    Alike (.next (s.endRun r e st res)) (.next (s.forgetLen.endRun r e' st res)) :=
  congrArg some (by rw [forgetLen_endRun, forgetLen_endRun, forgetLen_forgetLen, h])

theorem alike_takeFault (f : EngineFault) (h : e.forgetLen = e'.forgetLen := by rfl) :
    Alike (.next (s.takeFault r e f)) (.next (s.forgetLen.takeFault r e' f)) :=
  congrArg some (by rw [forgetLen_takeFault, forgetLen_takeFault, forgetLen_forgetLen, h])

/-! ## Instructions -/

/-- Decoding raises the same fault, or hands the same operands to the executions. -/
theorem alike_decodeThen {α : Type} (ha : s.active = some (r, e)) {phase : Config → Engine → Access α}
    {k k' : Run → Engine → α → Out} {cs gs : List Int} {v : α} (hp : Meets s.cfg e cs gs v (phase s.cfg e))
    (hp' : Meets s.cfg e.forgetLen cs gs v (phase s.cfg e.forgetLen))
    (hk : ∀ l l', Alike (k r { e with len := l } v) (k' r { e with len := l' } v)) :
    Alike (s.decodeThen phase k) (s.forgetLen.decodeThen phase k') := by
  have ha' : s.forgetLen.active = some (r, e.forgetLen) := by rw [active_forgetLen, ha]; rfl
  cases hf : firstFault s.cfg cs with
  | none =>
    rw [decodeThen_ok ha hp hf, decodeThen_ok ha' hp' hf]
    exact hk _ _
  | some f =>
    obtain ⟨l, -, hd⟩ := decodeThen_raise (k := k) ha hp hf
    obtain ⟨l', -, hd'⟩ := decodeThen_raise (k := k') ha' hp' hf
    rw [hd, hd']
    exact alike_takeFault f

theorem alike_yieldIf (ch : Channel) (st : Status) (code : Int) (h : e.forgetLen = e'.forgetLen := by rfl) :
    Alike (yieldIf s r e ch st code) (yieldIf s.forgetLen r e' ch st code) := by
  unfold yieldIf
  split
  · exact alike_endRun _ _ h
  · exact alike_goOn h

theorem alike_branch (s : State) (r : Run) (e : Engine) (l l' : Nat) (taken : Bool) (t : Int) :
    Alike (branch s r { e with len := l } taken t) (branch s.forgetLen r { e with len := l' } taken t) := by
  unfold branch
  split
  · simp only [forgetLen_cfg]
    cases checkAddr s.cfg t with
    | error f => exact alike_takeFault f
    | ok n => exact alike_goOn
  · exact alike_goOn

variable (ha : s.active = some (r, e))
include ha

theorem alike_aluOp (res : Config → Int → Int → Except EngineFault Int) (a b d : Operand) :
    Alike (aluOp res a b d s) (aluOp res a b d s.forgetLen) := by
  refine alike_decodeThen ha (meets_aluOperands a b d s.cfg e) (meets_aluOperands a b d s.cfg e.forgetLen)
    fun l l' => ?_
  simp only [forgetLen_cfg]
  cases res s.cfg (operandValue e a) (operandValue e b) with
  | error f => exact alike_takeFault f
  | ok x => exact alike_goOn

theorem alike_execInp (d : Operand) : Alike (execInp d s) (execInp d s.forgetLen) := by
  refine alike_decodeThen ha (meets_targetOperand d s.cfg e) (meets_targetOperand d s.cfg e.forgetLen) fun l l' => ?_
  simp only [forgetLen_cfg, forgetLen_channels, ← forgetLen_setChannel]
  cases s.channels[r.inp]? with
  | none => rfl
  | some ch =>
    cases hp : ch.pop s.cfg with
    | none =>
      simp only [hp]
      split
      · exact alike_endRun _ _
      · exact alike_takeFault _
    | some p =>
      simp only [hp]
      exact alike_yieldIf _ _ _

theorem alike_execOut (a : Operand) : Alike (execOut a s) (execOut a s.forgetLen) := by
  refine alike_decodeThen ha (meets_sourceOperand a s.cfg e) (meets_sourceOperand a s.cfg e.forgetLen) fun l l' => ?_
  simp only [forgetLen_cfg, forgetLen_channels, ← forgetLen_setChannel]
  cases s.channels[r.out]? with
  | none => rfl
  | some ch =>
    cases hp : ch.push s.cfg (operandValue e a) with
    | none =>
      simp only [hp]
      exact alike_takeFault _
    | some ch' =>
      simp only [hp]
      exact alike_yieldIf _ _ _

theorem alike_execArb (a : Operand) : Alike (execArb a s) (execArb a s.forgetLen) := by
  refine alike_decodeThen ha (meets_sourceOperand a s.cfg e) (meets_sourceOperand a s.cfg e.forgetLen) fun l l' => ?_
  simp only [forgetLen_cfg]
  cases rbResult s.cfg e.rb (operandValue e a) with
  | error f => exact alike_takeFault f
  | ok x => exact alike_goOn

theorem alike_execHlt : Alike (execHlt s) (execHlt s.forgetLen) :=
  alike_decodeThen ha (meets_noOperand s.cfg e) (meets_noOperand s.cfg e.forgetLen) fun _ _ => alike_endRun _ _

/-- No instruction observes a length. -/
theorem alike_exec (i : Instr) : Alike (exec i s) (exec i s.forgetLen) := by
  cases i with
  | add a b d => exact alike_aluOp ha addResult a b d
  | mul a b d => exact alike_aluOp ha mulResult a b d
  | lt a b d => exact alike_aluOp ha (fun _ => ltResult) a b d
  | eq a b d => exact alike_aluOp ha (fun _ => eqResult) a b d
  | jt c t | jf c t =>
    exact alike_decodeThen ha (meets_jumpOperands c t s.cfg e) (meets_jumpOperands c t s.cfg e.forgetLen)
      fun l l' => alike_branch s r e l l' ..
  | inp d => exact alike_execInp ha d
  | out a => exact alike_execOut ha a
  | arb a => exact alike_execArb ha a
  | hlt => exact alike_execHlt ha

/-- The fetch observes no length, and neither does what it hands on. -/
theorem alike_step_run : Alike (step s) (step s.forgetLen) := by
  have hr := (active_eq_some.1 ha).1
  have ha' : s.forgetLen.active = some (r, e.forgetLen) := by rw [active_forgetLen, ha]; rfl
  cases hip : addressable s.cfg e.ip with
  | false =>
    rw [step_of_beyond ha hip, step_of_beyond ha' hip]
    exact alike_takeFault _
  | true =>
    cases hd : decodeWith (e.mem.read e.ip) fun k => e.mem.read (e.ip + k) with
    | error sub =>
      rw [step_of_undecodable ha hip hd, step_of_undecodable ha' hip hd]
      exact alike_takeFault _
    | ok i =>
      rw [step_of_decodes ha hip hd, step_of_decodes ha' hip hd]
      have hforget : (s.goOn r (e.grow e.ip)).forgetLen = (s.forgetLen.goOn r (e.forgetLen.grow e.ip)).forgetLen := by
        rw [forgetLen_goOn, forgetLen_goOn, forgetLen_forgetLen]
        rfl
      have left := alike_exec (active_goOn ha (e.grow e.ip)) i
      have right := alike_exec (active_goOn ha' (e.forgetLen.grow e.ip)) i
      rw [hforget] at left
      exact left.trans right.symm

end

/-! ## Commands -/

section

variable (s : State)

theorem forgetLen_cmdNew (text : List Char) : (s.cmdNew text).forgetLen = (s.forgetLen.cmdNew text).forgetLen := by
  simp only [State.cmdNew, forgetLen_cfg]
  cases construct s.cfg text with
  | error f => simp only [forgetLen_report, forgetLen_forgetLen]
  | ok e =>
    have hmap := congrArg State.engines (forgetLen_forgetLen s)
    simp only [State.forgetLen] at hmap
    simp [State.forgetLen, State.report, hmap]

theorem forgetLen_cmdPush (c : Nat) (v : Int) : (s.cmdPush c v).forgetLen = (s.forgetLen.cmdPush c v).forgetLen := by
  cases hch : s.channels[c]? with
  | none => simp only [State.cmdPush, forgetLen_channels, hch, forgetLen_report, forgetLen_forgetLen]
  | some ch =>
    by_cases hv : Fits s.cfg.cellBits v
    · cases hp : ch.push s.cfg v with
      | none =>
        rw [cmdPush_full hch hv hp, cmdPush_full (s := s.forgetLen) hch hv hp]
        simp only [forgetLen_report, forgetLen_forgetLen]
      | some ch' =>
        rw [cmdPush_of_push hch hv hp, cmdPush_of_push (s := s.forgetLen) hch hv hp]
        simp only [forgetLen_report, forgetLen_setChannel, forgetLen_forgetLen]
    · rw [cmdPush_refused hch hv, cmdPush_refused (s := s.forgetLen) hch hv]
      simp only [forgetLen_report, forgetLen_forgetLen]

theorem forgetLen_cmdPop (c : Nat) : (s.cmdPop c).forgetLen = (s.forgetLen.cmdPop c).forgetLen := by
  cases hch : s.channels[c]? with
  | none => simp only [State.cmdPop, forgetLen_channels, hch, forgetLen_report, forgetLen_forgetLen]
  | some ch =>
    cases hp : ch.pop s.cfg with
    | none =>
      rw [cmdPop_empty hch hp, cmdPop_empty (s := s.forgetLen) hch hp]
      simp only [forgetLen_report, forgetLen_forgetLen]
    | some p =>
      rw [cmdPop_of_pop hch hp, cmdPop_of_pop (s := s.forgetLen) hch hp]
      simp only [forgetLen_report, forgetLen_setChannel, forgetLen_forgetLen]

theorem forgetLen_cmdContents (c : Nat) : (s.cmdContents c).forgetLen = (s.forgetLen.cmdContents c).forgetLen := by
  simp only [State.cmdContents, forgetLen_channels]
  cases s.channels[c]? <;> simp only [forgetLen_report, forgetLen_forgetLen]

/-- A run is begun with the Engine as it is, its length apart. -/
theorem forgetLen_beginRun (h inp out : Nat) (e : Engine) :
    State.forgetLen { s.setEngine h { e with status := .running } with running := some ⟨h, inp, out⟩ } =
      State.forgetLen { s.forgetLen.setEngine h { e.forgetLen with status := .running } with
        running := some ⟨h, inp, out⟩ } := by
  have hset : (s.setEngine h { e with status := .running }).forgetLen =
      (s.forgetLen.setEngine h { e.forgetLen with status := .running }).forgetLen := by
    rw [forgetLen_setEngine, forgetLen_setEngine, forgetLen_forgetLen]
    rfl
  exact congrArg (fun x : State => { x with running := some ⟨h, inp, out⟩ }) hset

theorem forgetLen_cmdRun (h inp out : Nat) :
    (s.cmdRun h inp out).forgetLen = (s.forgetLen.cmdRun h inp out).forgetLen := by
  have refused : (s.report .refused).forgetLen = (s.forgetLen.report .refused).forgetLen := by
    simp only [forgetLen_report, forgetLen_forgetLen]
  simp only [State.cmdRun, forgetLen_channels, engine?_forgetLen]
  cases s.engine? h with
  | none => exact refused
  | some e =>
    cases s.channels[inp]? with
    | none => exact refused
    | some ci =>
      cases s.channels[out]? with
      | none => exact refused
      | some co =>
        have hst : e.forgetLen.status = e.status := rfl
        simp only [Option.map_some, hst]
        cases e.status with
        | halted | faulted f => simp only [forgetLen_report, forgetLen_forgetLen]
        | running | suspendedOnInput | suspendedOnOutput => exact forgetLen_beginRun s h inp out e

theorem forgetLen_cmdReadMem (h : Nat) (a : Int) :
    (s.cmdReadMem h a).forgetLen = (s.forgetLen.cmdReadMem h a).forgetLen := by
  simp only [State.cmdReadMem, engine?_forgetLen]
  cases s.engine? h with
  | none => simp only [Option.map_none, forgetLen_report, forgetLen_forgetLen]
  | some e =>
    simp only [Option.map_some]
    split
    · simp only [forgetLen_report, forgetLen_forgetLen]
    · simp only [forgetLen_report, forgetLen_forgetLen]
      rfl

theorem forgetLen_cmdDiscard (h : Nat) : (s.cmdDiscard h).forgetLen = (s.forgetLen.cmdDiscard h).forgetLen := by
  simp only [State.cmdDiscard, engine?_forgetLen]
  cases s.engine? h with
  | none => simp only [Option.map_none, forgetLen_report, forgetLen_forgetLen]
  | some e =>
    have hmap := congrArg State.engines (forgetLen_forgetLen s)
    simp only [State.forgetLen] at hmap
    simp [State.forgetLen, State.report, List.map_set, hmap]

/-- No command observes a length. -/
theorem forgetLen_perform (cmd : Command) : (s.perform cmd).forgetLen = (s.forgetLen.perform cmd).forgetLen := by
  cases cmd with
  | new text => exact forgetLen_cmdNew s text
  | newChannel b => exact congrArg (fun x => (State.cmdNewChannel x b)) (forgetLen_forgetLen s).symm
  | push c v => exact forgetLen_cmdPush s c v
  | pop c => exact forgetLen_cmdPop s c
  | contents c => exact forgetLen_cmdContents s c
  | run h inp out => exact forgetLen_cmdRun s h inp out
  | readMem h a => exact forgetLen_cmdReadMem s h a
  | discard h => exact forgetLen_cmdDiscard s h

end

/-- The host's turn observes no length. -/
theorem forgetLen_hostTurn (s : State) : (hostTurn s).forgetLen = (hostTurn s.forgetLen).forgetLen := by
  simp only [hostTurn, forgetLen_commands]
  cases s.commands with
  | nil => exact (forgetLen_forgetLen s).symm
  | cons cmd rest => exact forgetLen_perform { s with commands := rest } cmd

/-- No step observes a length. -/
theorem alike_step (s : State) : Alike (step s) (step s.forgetLen) := by
  cases hr : s.running with
  | none =>
    rw [step_idle hr, step_idle (s := s.forgetLen) hr]
    exact congrArg some (forgetLen_hostTurn s)
  | some r =>
    cases ha : s.active with
    | none =>
      have ha' : s.forgetLen.active = none := by rw [active_forgetLen, ha]; rfl
      rw [step_noEngine hr ha, step_noEngine (s := s.forgetLen) hr ha']
      rfl
    | some p => exact alike_step_run ha

/-- Settles O42: both steps are alike to the step of the one state with the lengths forgotten. -/
theorem memoryLengthIsUnobservable : Obligations.MemoryLengthIsUnobservable := by
  intro s t hst
  have hs := alike_step s
  rw [hst] at hs
  exact hs.trans (alike_step t).symm

end Sys2Proof.Machine
end
